-- ==== Sys2Proof/Word.lean ====
section
/-! DEFINITION. The data types of the interface: bytes, character codes, 64-bit integers and command words
(20_memory.md R59; 30_encoding.md R78), and the sequence slice of 00_scope.md R9. -/

namespace Sys2Proof

/-- A byte element, 8 bits (R59). -/
abbrev Byte := BitVec 8

/-- One symbol on the interface is one 8-bit character code (R26, R59). -/
abbrev CharCode := BitVec 8

/-- An integer operand or result (R59). -/
abbrev U64 := BitVec 64

/-- The command word CMD32 (R78). -/
abbrev CmdWord := BitVec 32

/-- A byte sequence, indexed from 0 at the front (R9). -/
abbrev Bytes := List Byte

/-- A string of character codes, most significant symbol first (R9). -/
abbrev Text := List CharCode

/-- The slice `s[i .. j)` of R9. -/
def slice {α : Type} (s : List α) (i j : Nat) : List α := (s.drop i).take (j - i)

end Sys2Proof
end

