-- ==== Sys2Proof/Config.lean ====
section
/-! DEFINITION. The constants DOC fixes (00_scope.md R6), the three parameters it leaves open (R7;
92_eei_decisions.md D7, D10), and the free values of a read of an unwritten input (10_state.md R40). An open
parameter and a free value have no body, so a proof holds for every value allowed. -/

namespace Sys2Proof.Config

/-- RADIX (R6). -/
abbrev radix : Nat := 62

/-- The largest u64, 2^64 - 1 (R6, WORD_BITS). -/
abbrev maxU64 : Nat := 18446744073709551615

/-- MAX_INT_SYMBOLS (R6): the number of place values of the integer encoder. -/
abbrev maxIntSymbols : Nat := 11

/-- BLOCK_BYTES (R6). -/
abbrev blockBytes : Nat := 8

/-- PAD_WIDTH (R6): the width of a padded block and of a decode window. -/
abbrev padWidth : Nat := 11

/-- TERMINATOR_MAX (R6). -/
abbrev terminatorMax : Nat := 8

/-- MIN_BYTE_TEXT (R6). -/
abbrev minByteText : Nat := 2

/-- SAME_SYMBOL_ORDER's two values (R115). -/
inductive SymbolOrder where
  | invalidFirst   -- VAL is applied first: InvalidCharacter
  | overflowFirst  -- the multiply is checked first: Overflow
  deriving DecidableEq, Repr, Inhabited

/-- MAX_IN_BYTES, any integer at least 0 (R7, D7). OPEN: no body. One constant for every instance of a
platform is the model's choice (log 4). -/
opaque maxInBytes : Nat

/-- How far MAX_IN_CHARS lies above its least value, 2. OPEN: no body. Log 4. -/
opaque maxInCharsAboveLeast : Nat

/-- MAX_IN_CHARS, any integer at least 2 (R7, D7). One constant for every instance of a platform is the
model's choice (log 4). -/
def maxInChars : Nat := minByteText + maxInCharsAboveLeast

/-- SAME_SYMBOL_ORDER (R7, R115, D10). OPEN: no body. One constant for every instance of a platform (R217)
is the model's choice (log 5). -/
opaque sameSymbolOrder : SymbolOrder

/-- FREE VALUE: what the n-th read of an input without a value returns, where the input is VALUE_IN; the spec
states none (R24, R40). No body. Log 12. -/
opaque unwrittenValue : Nat → U64

/-- FREE VALUE: the same for BYTES_IN, before the cut to its capacity (R25, R40). No body. Log 12. -/
opaque unwrittenBytes : Nat → Bytes

/-- FREE VALUE: the same for TEXT_IN, before the cut to its capacity (R26, R40). No body. Log 12. -/
opaque unwrittenText : Nat → Text

end Sys2Proof.Config
end

