-- ==== Sys2Proof/Syntax.lean ====
section
/-! DEFINITION. The six commands of spec/opcode_table.json, one constructor a row (30_encoding.md R80). -/

namespace Sys2Proof

/-- The commands of R80. Every operand but LEN is implicit: it comes from the interface register named
for the opcode (R79). -/
inductive Instr where
  | encodeUint64               -- OP 0x1, rule R100
  | decodeUint64               -- OP 0x2, rule R110
  | encodeBytes                -- OP 0x3, rule R140
  | decodeBytes                -- OP 0x4, rule R150
  | beRead                     -- OP 0x5, rule R182
  | beWrite (len : BitVec 4)   -- OP 0x6 with the byte count LEN, rule R187
  deriving DecidableEq, Repr

end Sys2Proof
end

