-- ==== Sys2Proof/WellFormed.lean ====
section
/-! DEFINITION. Which terms of `Instr` are commands the core has: be_write's LEN is 0 to 8 (30_encoding.md R82). -/

namespace Sys2Proof

/-- The check on each constructor's fields: only LEN has one (R79, R82). -/
def Instr.wellFormed : Instr → Bool
  | .encodeUint64 => true
  | .decodeUint64 => true
  | .encodeBytes => true
  | .decodeBytes => true
  | .beRead => true
  | .beWrite len => decide (len.toNat ≤ Config.blockBytes)

end Sys2Proof
end

