-- ==== Sys2Proof/Decode.lean ====
section
/-! DEFINITION. DecodeCmd (30_encoding.md R81), total on every 32-bit word, and the encoder of the same
table (R80). -/

namespace Sys2Proof

/-- OP, bits [3:0] (10_state.md R23). -/
def opField (w : CmdWord) : BitVec 4 := w.extractLsb' 0 4

/-- LEN, bits [7:4] (10_state.md R23). -/
def lenField (w : CmdWord) : BitVec 4 := w.extractLsb' 4 4

/-- RSV, bits [31:8] (10_state.md R23). -/
def rsvField (w : CmdWord) : BitVec 24 := w.extractLsb' 8 24

/-- Which check of R81 a word fails. Each one raises IllegalCommand (R205). -/
inductive DecodeReject where
  | reservedBits (rsv : BitVec 24)              -- RSV is not 0 (R84)
  | reservedOp (op : BitVec 4)                  -- OP is 0x0 or 0x7 to 0xF (R83)
  | lenNotZero (op : BitVec 4) (len : BitVec 4) -- LEN is not 0 on a command other than be_write (R82)
  | lenTooLarge (len : BitVec 4)                -- LEN is 9 to 15 on be_write (R82)
  deriving DecidableEq, Repr

/-- The opcode map of R80: the command an OP selects, given LEN; none for a reserved OP (R83). -/
def opCommand (op len : BitVec 4) : Option Instr :=
  if op = 0x1#4 then some .encodeUint64
  else if op = 0x2#4 then some .decodeUint64
  else if op = 0x3#4 then some .encodeBytes
  else if op = 0x4#4 then some .decodeBytes
  else if op = 0x5#4 then some .beRead
  else if op = 0x6#4 then some (.beWrite len)
  else none

/-- DecodeCmd (R81): RSV, then OP, then LEN. -/
def decode (w : CmdWord) : Except DecodeReject Instr :=
  if rsvField w ≠ 0#24 then .error (.reservedBits (rsvField w))
  else match opCommand (opField w) (lenField w) with
    | none => .error (.reservedOp (opField w))
    | some i =>
      if opField w ≠ 0x6#4 ∧ lenField w ≠ 0#4 then .error (.lenNotZero (opField w) (lenField w))
      else if opField w = 0x6#4 ∧ Config.blockBytes < (lenField w).toNat then
        .error (.lenTooLarge (lenField w))
      else .ok i

/-- The command word of each command (R80's list of full command words). -/
def encode : Instr → CmdWord
  | .encodeUint64 => 0x00000001#32
  | .decodeUint64 => 0x00000002#32
  | .encodeBytes => 0x00000003#32
  | .decodeBytes => 0x00000004#32
  | .beRead => 0x00000005#32
  | .beWrite len => 0x00000006#32 ||| (len.setWidth 32 <<< 4)

/-- The command word whose low `nbits` bits are those of `w`, the rest 0; none where `w` has a bit above
bit 31, since a command is exactly one 32-bit word (R78). -/
def tableCmdWord (nbits w : Nat) : Option CmdWord :=
  if w % 2 ^ nbits < 2 ^ 32 then some (BitVec.ofNat 32 (w % 2 ^ nbits)) else none

/-- The command the decoder reads from a word numbered as spec/opcode_table.json numbers it. A command
word is one 32-bit register, so no byte order arises (R23, R78). -/
def decodeTableWord (nbits w : Nat) : Option Instr :=
  match tableCmdWord nbits w with
  | none => none
  | some c =>
    match decode c with
    | .error _ => none
    | .ok i => some i

end Sys2Proof
end

