-- ==== Sys2Proof/Machine/State.lean ====
section
/-! DEFINITION. The state of one core (10_state.md), the host moves it reads (70_reset_and_hazards.md R244),
and the reasons a step stops. -/

namespace Sys2Proof.Machine

/-- The host-visible interface registers (R23 to R30). -/
inductive Reg where
  | cmd | valueIn | bytesIn | textIn | status | valueOut | bytesOut | textOut
  deriving DecidableEq, Repr

/-- One move of the host (R40, R244). The writes of STATUS and of the outputs are moves a host can try
and the core refuses (R40). -/
inductive HostMove where
  | writeValueIn (v : U64)
  | writeBytesIn (b : Bytes)
  | writeTextIn (t : Text)
  | writeCmd (w : CmdWord)
  | writeStatus (b : Byte)
  | writeValueOut (v : U64)
  | writeBytesOut (b : Bytes)
  | writeTextOut (t : Text)
  | read (r : Reg)
  | reset
  deriving DecidableEq, Repr

/-- What a host read returns. -/
inductive ReadData where
  | status (b : Byte)
  | value (v : U64)
  | bytes (b : Bytes)
  | text (t : Text)
  deriving DecidableEq, Repr

/-- The integer encoder's working state (R33, R34). -/
structure IntEncoderWork where
  /-- REM, the remaining value. -/
  rem : U64
  /-- K, the index of the current place value 62^K. -/
  k : Nat
  /-- STARTED, the leading-zero suppression flag (R33). -/
  started : Bool
  /-- OUT, the symbols emitted so far. -/
  out : Text
  deriving DecidableEq, Repr

/-- The integer decoder's working state (R35). -/
structure IntDecoderWork where
  /-- ACC, the accumulator. -/
  acc : U64
  /-- I, the index of the next symbol. -/
  i : Nat
  deriving DecidableEq, Repr

/-- The block fragmenter's working state (R36). -/
structure FragmenterWork where
  /-- OFF, the offset of the current window in the input. -/
  off : Nat
  /-- REMAINING, the bytes left from the current offset. -/
  remaining : Nat
  /-- OUT, the output so far. -/
  out : Text
  deriving DecidableEq, Repr

/-- The block deframer's working state (R37). -/
structure DeframerWork where
  /-- LBS, the terminator's value. -/
  lbs : Nat
  /-- CL, the content length. -/
  cl : Nat
  /-- OFF, the offset of the current 11-symbol window. -/
  off : Nat
  /-- OUT, the rendered bytes so far. -/
  out : Bytes
  deriving DecidableEq, Repr

/-- The working state of a command in progress (R20, R38), by the step it takes next (R108, R118, R160).
The two big-endian commands have none (R33 to R37 name none for them). -/
inductive Work where
  | encodeZeroTest                 -- encode_uint64 before its zero test (R108)
  | encodePlaces (w : IntEncoderWork)
  | decodeEmptyTest                -- decode_uint64 before its empty test (R118)
  | decodeSymbols (w : IntDecoderWork)
  | fragment (w : FragmenterWork)  -- encode_bytes before a window (R160)
  | deframeLength                  -- decode_bytes before its length check (R160)
  | deframeTerminator              -- decode_bytes before its terminator check (R160)
  | deframeWindows (w : DeframerWork)
  deriving DecidableEq, Repr

/-- The errors a command ends with (60_exceptions.md R201 to R205). -/
inductive CommandError where
  | emptyInput | invalidCharacter | overflow | malformedTerminator | illegalCommand
  deriving DecidableEq, Repr

/-- The state of one core: the interface registers, the working state of a command in progress, and the
host's side of the interface. `none` in a register is the spec's own "no value" (R28 to R31, R41). -/
structure State where
  /-- CMD (R23). Log 9. -/
  cmd : Option CmdWord
  /-- VALUE_IN (R24). -/
  valueIn : Option U64
  /-- BYTES_IN (R25). -/
  bytesIn : Option Bytes
  /-- TEXT_IN (R26). -/
  textIn : Option Text
  /-- STATUS (R27): CODE in bits [2:0], bits [7:3] read as 0. -/
  status : BitVec 8
  /-- VALUE_OUT (R28). -/
  valueOut : Option U64
  /-- BYTES_OUT (R29). -/
  bytesOut : Option Bytes
  /-- TEXT_OUT (R30). -/
  textOut : Option Text
  /-- The working state of the command in progress, if one is (R20, R33 to R38). Log 1. -/
  work : Option Work
  /-- The model's own field: the host's pending moves, oldest first. Log 2. -/
  moves : List HostMove
  /-- The model's own field: what the last host read returned. Log 3. -/
  readData : Option ReadData
  /-- The model's own field: how many reads of an input without a value were answered, which picks the next
  free value. Log 12. -/
  freeReads : Nat
  deriving DecidableEq, Repr

/-- The reset values of R41: STATUS.CODE = 7 (NoResult), every other register no value, no command in
progress. -/
def State.reset : State where
  cmd := none
  valueIn := none
  bytesIn := none
  textIn := none
  status := 0x07#8
  valueOut := none
  bytesOut := none
  textOut := none
  work := none
  moves := []
  readData := none
  freeReads := 0

/-- Why the machine stops. No command raises one: a command's own errors are STATUS codes (R207). -/
inductive Fault where
  /-- Raised by a host read of VALUE_OUT, BYTES_OUT or TEXT_OUT that holds no value (R31;
  93_implementation_defined.md I10). Safe: the spec's own fault. -/
  | outputHasNoValue (r : Reg)
  /-- Raised by a host write longer than MAX_IN_BYTES or MAX_IN_CHARS: it has no move (R244; I6, stuck).
  Safe: the run ends (log 11). -/
  | oversizedWrite (r : Reg)
  deriving DecidableEq, Repr

/-- Why the machine refuses a host move or a command; the state does not change
(93_implementation_defined.md). -/
inductive Refusal where
  /-- Raised by no arm of this model: kept for an instruction without a meaning. Safe. -/
  | notModelled (mnemonic : String)
  /-- Raised by a command that reads an input register holding no value (R41, R242; I13). Safe: the
  spec's own refusal. -/
  | operandNotWritten (r : Reg)
  /-- Raised by a host read of CMD (R23; I11). Safe: the spec's own refusal. -/
  | readOfCmd
  /-- Raised by a host write of STATUS or of an output register (R27, R40; I12). Safe: the spec's own
  refusal. -/
  | writeOfReadOnly (r : Reg)
  deriving DecidableEq, Repr

/-- The outcome of a command or a step. -/
abbrev Outcome := Host.Outcome State Fault Refusal

end Sys2Proof.Machine
end

