-- ==== Sys2Proof/Machine/Flags.lean ====
section
/-! DEFINITION. The STATUS codes (60_exceptions.md R200), the fields of STATUS (10_state.md R27), and the
core's one flag, STARTED (R33, R104). -/

namespace Sys2Proof.Machine

/-- CODE 0, OK (R200). -/
def codeOk : BitVec 3 := 0#3

/-- CODE 7, NoResult, written only by reset (R200). -/
def codeNoResult : BitVec 3 := 7#3

/-- The code of each error (R200). -/
def errorCode : CommandError → BitVec 3
  | .emptyInput => 1#3
  | .invalidCharacter => 2#3
  | .overflow => 3#3
  | .malformedTerminator => 4#3
  | .illegalCommand => 5#3

/-- STATUS with the given CODE: bits [7:3] are 0 (R27). -/
def statusWith (code : BitVec 3) : BitVec 8 := 0#5 ++ code

/-- STATUS.CODE, bits [2:0] (R27). -/
def statusCode (st : BitVec 8) : BitVec 3 := st.extractLsb' 0 3

/-- STATUS bits [7:3], reserved (R27). -/
def statusReserved (st : BitVec 8) : BitVec 5 := st.extractLsb' 3 5

/-- STARTED after a place whose digit is `q`: it turns true at the first nonzero digit and stays true
(R33, R104). -/
def startedAfter (started : Bool) (q : Nat) : Bool := started || q != 0

end Sys2Proof.Machine
end

