-- ==== Sys2Proof/Machine/Ops.lean ====
section
/-! DEFINITION. How a command ends. A successful command writes its own output register and STATUS and
sets the other outputs to no value (10_state.md R31); a failing one aborts (60_exceptions.md R207). The
abort is this core's whole exception mechanism: there is no trap entry and no return (R210, R211). -/

namespace Sys2Proof.Machine

/-- Completion: STATUS and all three outputs are written once, and the working state is gone (R31, R38, R60). -/
def endCommand (code : BitVec 3) (value : Option U64) (bytes : Option Bytes) (text : Option Text)
    (s : State) : State :=
  { s with
    status := statusWith code
    valueOut := value
    bytesOut := bytes
    textOut := text
    work := none }

/-- A command succeeds with a u64 (R28, R31). -/
def succeedValue (v : U64) (s : State) : Outcome := .next (endCommand codeOk (some v) none none s)

/-- A command succeeds with a byte sequence (R29, R31). -/
def succeedBytes (b : Bytes) (s : State) : Outcome := .next (endCommand codeOk none (some b) none s)

/-- A command succeeds with a string (R30, R31). -/
def succeedText (t : Text) (s : State) : Outcome := .next (endCommand codeOk none none (some t) s)

/-- `raise E()` (R207): STATUS.CODE gets the error's code, all three outputs get no value, and no other
state changes. The core accepts the next command at once (R211). -/
def abort (e : CommandError) (s : State) : Outcome :=
  .next (endCommand (errorCode e) none none none s)

/-- Ends a command whose function gave a u64 or an error. -/
def finishValue (r : Except CommandError U64) (s : State) : Outcome :=
  match r with
  | .error e => abort e s
  | .ok v => succeedValue v s

/-- Ends a command whose function gave a byte sequence or an error. -/
def finishBytes (r : Except CommandError Bytes) (s : State) : Outcome :=
  match r with
  | .error e => abort e s
  | .ok b => succeedBytes b s

end Sys2Proof.Machine
end

