-- ==== Sys2Proof/Machine/Operands.lean ====
section
/-! DEFINITION. The operand forms (30_encoding.md R79): the three implicit input registers and the
immediate LEN. A command that reads an input register with no value is refused (10_state.md R41). -/

namespace Sys2Proof.Machine

/-- Reads VALUE_IN (R24, R41). -/
def withValueIn (s : State) (run : U64 → Outcome) : Outcome :=
  match s.valueIn with
  | none => .refused (.operandNotWritten .valueIn)
  | some v => run v

/-- Reads BYTES_IN (R25, R41). -/
def withBytesIn (s : State) (run : Bytes → Outcome) : Outcome :=
  match s.bytesIn with
  | none => .refused (.operandNotWritten .bytesIn)
  | some b => run b

/-- Reads TEXT_IN (R26, R41). -/
def withTextIn (s : State) (run : Text → Outcome) : Outcome :=
  match s.textIn with
  | none => .refused (.operandNotWritten .textIn)
  | some t => run t

/-- LEN as a count: `zext_64(CMD[7:4])`, neither sign-extended nor scaled (R79). -/
abbrev lenCount (len : BitVec 4) : Nat := len.toNat

end Sys2Proof.Machine
end

