-- ==== Sys2Proof/Machine/BigEndian.lean ====
section
/-! DEFINITION. Big-endian read and write (42_big_endian.md): BE_PARSE, BE_RENDER and the commands be_read
and be_write. -/

namespace Sys2Proof.Machine

/-- BE_PARSE (R180): `v <- (v << 8) | b[i]` from the front. Defined for at most 8 bytes and used
on no more; beyond, the value is the model's (log 8). -/
def beParse (b : Bytes) : U64 :=
  b.foldl (fun v x => (v <<< 8) ||| x.setWidth 64) 0#64

/-- BE_RENDER (R185): byte i is `(v >> ((n - 1 - i) * 8)) & 0xFF`. Defined for n from 0 to 8 and used on no
other; for n above 8 the zero bytes in front are the model's choice (log 8). -/
def beRender (v : U64) (n : Nat) : Bytes :=
  (List.range n).map fun i => ((v >>> ((n - 1 - i) * 8)) &&& 0xFF#64).setWidth 8

/-- be_read (R182): more than 8 bytes raise IllegalCommand. -/
def execBeRead (s : State) : Outcome :=
  withBytesIn s fun b =>
    if Config.blockBytes < b.length then abort .illegalCommand s else succeedValue (beParse b) s

/-- be_write (R187). LEN above 8 is an illegal word, raised before any operand is read (R81, R82); a
decoded word never has one (log 13). -/
def execBeWrite (len : BitVec 4) (s : State) : Outcome :=
  if Config.blockBytes < lenCount len then abort .illegalCommand s
  else withValueIn s fun v => succeedBytes (beRender v (lenCount len)) s

end Sys2Proof.Machine
end

