-- ==== Sys2Proof/Machine/Alphabet.lean ====
section
/-! DEFINITION. The alphabet ROM (10_state.md R32; 30_encoding.md R70) and its two maps SYM and VAL
(R71, R72). -/

namespace Sys2Proof.Machine

/-- The ROM's entries 0 to 9, '0' to '9' (R70). -/
def alphabetDigits : List CharCode :=
  [0x30#8, 0x31#8, 0x32#8, 0x33#8, 0x34#8, 0x35#8, 0x36#8, 0x37#8, 0x38#8, 0x39#8]

/-- The ROM's entries 10 to 35, 'A' to 'Z' (R70). -/
def alphabetUpper : List CharCode :=
  [0x41#8, 0x42#8, 0x43#8, 0x44#8, 0x45#8, 0x46#8, 0x47#8, 0x48#8, 0x49#8, 0x4A#8, 0x4B#8, 0x4C#8, 0x4D#8]
    ++ [0x4E#8, 0x4F#8, 0x50#8, 0x51#8, 0x52#8, 0x53#8, 0x54#8, 0x55#8, 0x56#8, 0x57#8, 0x58#8, 0x59#8, 0x5A#8]

/-- The ROM's entries 36 to 61, 'a' to 'z' (R70). -/
def alphabetLower : List CharCode :=
  [0x61#8, 0x62#8, 0x63#8, 0x64#8, 0x65#8, 0x66#8, 0x67#8, 0x68#8, 0x69#8, 0x6A#8, 0x6B#8, 0x6C#8, 0x6D#8]
    ++ [0x6E#8, 0x6F#8, 0x70#8, 0x71#8, 0x72#8, 0x73#8, 0x74#8, 0x75#8, 0x76#8, 0x77#8, 0x78#8, 0x79#8, 0x7A#8]

/-- ALPHABET: 62 entries, entry i the code of the symbol of digit value i (R32, R70). -/
def alphabet : List CharCode := alphabetDigits ++ alphabetUpper ++ alphabetLower

/-- SYM(v) = ALPHABET[v], defined for v at most 61 (R71). No command calls it above 61; the code 0 there
is never used (log 7). -/
def sym (v : Nat) : CharCode := alphabet.getD v 0x00#8

/-- VAL(c); none where R72 raises InvalidCharacter. -/
def val (c : CharCode) : Option Nat :=
  if 0x30 ≤ c.toNat ∧ c.toNat ≤ 0x39 then some (c.toNat - 0x30)
  else if 0x41 ≤ c.toNat ∧ c.toNat ≤ 0x5A then some (c.toNat - 0x41 + 10)
  else if 0x61 ≤ c.toNat ∧ c.toNat ≤ 0x7A then some (c.toNat - 0x61 + 36)
  else none

end Sys2Proof.Machine
end

