-- ==== Sys2Proof/Machine/IntegerCodec.lean ====
section
/-! DEFINITION. The integer codec (40_integer_codec.md): ENC and DEC, loop body by loop body on the
working state of 10_state.md R34 and R35, and the commands encode_uint64 and decode_uint64. -/

namespace Sys2Proof.Machine

/-- The place value 62^k (R102). -/
def placeValue (k : Nat) : Nat := Config.radix ^ k

/-- The body of ENC's loop at place K (R100): one digit (R103), the suppression flag (R104), the
remainder (R105). -/
def placeStep (w : IntEncoderWork) : IntEncoderWork :=
  let pv := placeValue w.k
  let q := w.rem.toNat / pv
  let started := startedAfter w.started q
  { rem := BitVec.ofNat 64 (w.rem.toNat - q * pv)
    k := w.k - 1
    started := started
    out := if started then w.out ++ [sym q] else w.out }

/-- `n` place steps one after the other. -/
def runPlaces : Nat → IntEncoderWork → IntEncoderWork
  | 0, w => w
  | n + 1, w => runPlaces n (placeStep w)

/-- ENC's working state before the first place, k = 10 (R100). -/
def encodeStart (v : U64) : IntEncoderWork :=
  { rem := v, k := Config.maxIntSymbols - 1, started := false, out := [] }

/-- ENC (R100): "0" for 0 (R101), else the places 62^10 down to 62^0. -/
def enc (v : U64) : Text :=
  if v = 0#64 then [sym 0] else (runPlaces Config.maxIntSymbols (encodeStart v)).out

/-- The error for one symbol that is both outside the alphabet and arrives when acc·62 already exceeds
2^64 - 1 (R115). -/
def sameSymbolError : Config.SymbolOrder → CommandError
  | .invalidFirst => .invalidCharacter
  | .overflowFirst => .overflow

/-- The body of DEC's loop (R110): multiply by 62 and add, exactly (R112, R114). The order of the two
checks shows only where both fail (R115), so it is asked only there. -/
def decodeSymbol (order : Config.SymbolOrder) (acc : U64) (c : CharCode) : Except CommandError U64 :=
  match val c with
  | none =>
    if Config.maxU64 < acc.toNat * Config.radix then .error (sameSymbolError order)
    else .error .invalidCharacter
  | some d =>
    if Config.maxU64 < acc.toNat * Config.radix + d then .error .overflow
    else .ok (BitVec.ofNat 64 (acc.toNat * Config.radix + d))

/-- DEC's loop over the symbols left, left to right (R112, R116). -/
def decodeFrom (order : Config.SymbolOrder) (acc : U64) : Text → Except CommandError U64
  | [] => .ok acc
  | c :: t =>
    match decodeSymbol order acc c with
    | .error e => .error e
    | .ok a => decodeFrom order a t

/-- DEC (R110): the empty test (R111), then the symbols. -/
def dec (order : Config.SymbolOrder) (t : Text) : Except CommandError U64 :=
  if t = [] then .error .emptyInput else decodeFrom order 0#64 t

/-- encode_uint64 (R100). -/
def execEncodeUint64 (s : State) : Outcome :=
  withValueIn s fun v => succeedText (enc v) s

/-- decode_uint64 (R110). -/
def execDecodeUint64 (s : State) : Outcome :=
  withTextIn s fun t => finishValue (dec Config.sameSymbolOrder t) s

end Sys2Proof.Machine
end

