-- ==== Sys2Proof/Machine/ByteCodec.lean ====
section
/-! DEFINITION. The byte codec (41_byte_codec.md): EB and DB, window by window on the working state of
10_state.md R36 and R37, and the commands encode_bytes and decode_bytes. -/

namespace Sys2Proof.Machine

/-- pad11 (R145): the symbol '0' on the left up to exactly 11 symbols. -/
def pad11 (s : Text) : Text := List.replicate (Config.padWidth - s.length) (sym 0) ++ s

/-- EB's working state before the first window (R140). -/
def fragmentStart (b : Bytes) : FragmenterWork := { off := 0, remaining := b.length, out := [] }

/-- The body of EB's loop (R140): a non-final window (R142) or the final one with its terminator (R143);
the offset advances by 8 either way (R144). -/
def fragmentStep (b : Bytes) (w : FragmenterWork) : FragmenterWork :=
  { off := w.off + Config.blockBytes
    remaining := b.length - (w.off + Config.blockBytes)
    out :=
      if Config.blockBytes < w.remaining then
        w.out ++ pad11 (enc (beParse (slice b w.off (w.off + Config.blockBytes))))
      else w.out ++ enc (beParse (slice b w.off b.length)) ++ [sym w.remaining] }

/-- `while off < n`, for at most `fuel` windows. -/
def fragmentLoop (b : Bytes) : Nat → FragmenterWork → FragmenterWork
  | 0, w => w
  | fuel + 1, w => if w.off < b.length then fragmentLoop b fuel (fragmentStep b w) else w

/-- ceil(n / 8), the number of windows of n bytes (R144, R248). -/
def blockCount (n : Nat) : Nat := (n + (Config.blockBytes - 1)) / Config.blockBytes

/-- EB (R140): "00" for the empty sequence (R141), else the windows. -/
def encodeBlocks (b : Bytes) : Text :=
  if b = [] then [sym 0, sym 0] else (fragmentLoop b (blockCount b.length) (fragmentStart b)).out

/-- The terminator's value (R152): the last symbol through VAL, at most 8. The length check comes before
it, so the text is not empty (R156). -/
def terminatorValue (t : Text) : Except CommandError Nat :=
  match t.getLast? with
  | none => .error .emptyInput
  | some c =>
    match val c with
    | none => .error .invalidCharacter
    | some lbs => if Config.terminatorMax < lbs then .error .malformedTerminator else .ok lbs

/-- DB's working state before the first window (R150, R153). -/
def deframeStart (t : Text) (lbs : Nat) : DeframerWork :=
  { lbs := lbs, cl := t.length - 1, off := 0, out := [] }

/-- One window of DB: its symbols through DEC, whose errors end the command (R154), then `n` rendered bytes;
the offset advances by 11. -/
def deframeWindow (order : Config.SymbolOrder) (symbols : Text) (n : Nat) (w : DeframerWork) :
    Except CommandError DeframerWork :=
  match dec order symbols with
  | .error e => .error e
  | .ok v => .ok { w with off := w.off + Config.padWidth, out := w.out ++ beRender v n }

/-- The body of DB's loop (R150): the final window renders LBS bytes (R155), a full one 8 (R154). -/
def deframeStep (order : Config.SymbolOrder) (t : Text) (w : DeframerWork) :
    Except CommandError DeframerWork :=
  if w.cl - w.off ≤ Config.padWidth then
    deframeWindow order (slice t w.off (w.off + (w.cl - w.off))) w.lbs w
  else deframeWindow order (slice t w.off (w.off + Config.padWidth)) Config.blockBytes w

/-- `while off < cl`, for at most `fuel` windows; the first error ends it (R156). -/
def deframeLoop (order : Config.SymbolOrder) (t : Text) :
    Nat → DeframerWork → Except CommandError DeframerWork
  | 0, w => .ok w
  | fuel + 1, w =>
    if w.off < w.cl then
      match deframeStep order t w with
      | .error e => .error e
      | .ok w' => deframeLoop order t fuel w'
    else .ok w

/-- ceil(cl / 11), the number of windows of cl symbols (R153, R248). -/
def windowCount (cl : Nat) : Nat := (cl + (Config.padWidth - 1)) / Config.padWidth

/-- The window scan from a working state to its end (R153 to R155). -/
def deframeAll (order : Config.SymbolOrder) (t : Text) (w : DeframerWork) :
    Except CommandError Bytes :=
  match deframeLoop order t (windowCount w.cl) w with
  | .error e => .error e
  | .ok w' => .ok w'.out

/-- DB after its length check: the terminator, then the windows (R156). -/
def decodeTerminated (order : Config.SymbolOrder) (t : Text) : Except CommandError Bytes :=
  match terminatorValue t with
  | .error e => .error e
  | .ok lbs => deframeAll order t (deframeStart t lbs)

/-- DB (R150): the length check (R151), the terminator (R152), the windows (R153). -/
def decodeBlocks (order : Config.SymbolOrder) (t : Text) : Except CommandError Bytes :=
  if t.length < Config.minByteText then .error .emptyInput else decodeTerminated order t

/-- encode_bytes (R140). -/
def execEncodeBytes (s : State) : Outcome :=
  withBytesIn s fun b => succeedText (encodeBlocks b) s

/-- decode_bytes (R150). -/
def execDecodeBytes (s : State) : Outcome :=
  withTextIn s fun t => finishBytes (decodeBlocks Config.sameSymbolOrder t) s

end Sys2Proof.Machine
end

