-- ==== Sys2Proof/Machine/Dispatch.lean ====
section
/-! DEFINITION. The meaning of each command, one arm a constructor (30_encoding.md R80). -/

namespace Sys2Proof.Machine

/-- One command on a core that holds its operands: the whole command is one atomic transition (R38, R60). -/
def exec (i : Instr) (s : State) : Host.Outcome State Fault Refusal :=
  match i with
  | .encodeUint64 => Sys2Proof.Machine.execEncodeUint64 s
  | .decodeUint64 => Sys2Proof.Machine.execDecodeUint64 s
  | .encodeBytes => Sys2Proof.Machine.execEncodeBytes s
  | .decodeBytes => Sys2Proof.Machine.execDecodeBytes s
  | .beRead => Sys2Proof.Machine.execBeRead s
  | .beWrite len => Sys2Proof.Machine.execBeWrite len s

end Sys2Proof.Machine
end

