-- ==== Sys2Proof/Machine/HostPort.lean ====
section
/-! DEFINITION. What each host move does (10_state.md R40; 70_reset_and_hazards.md R243, R244), and the
reset (R240). -/

namespace Sys2Proof.Machine

/-- Reset (R240): every register takes its value of R41, and a command in progress is abandoned with its
working state. The host's pending moves, its last read and the free values' counter are no registers (log 16). -/
def resetCore (s : State) : State :=
  { State.reset with moves := s.moves, readData := s.readData, freeReads := s.freeReads }

/-- A host write of VALUE_IN (R24, R244). -/
def writeValueIn (v : U64) (s : State) : Outcome := .next { s with valueIn := some v }

/-- A host write of BYTES_IN; past MAX_IN_BYTES it has no move (R25, R244). -/
def writeBytesIn (b : Bytes) (s : State) : Outcome :=
  if b.length ≤ Config.maxInBytes then .next { s with bytesIn := some b }
  else .fault (.oversizedWrite .bytesIn)

/-- A host write of TEXT_IN; past MAX_IN_CHARS it has no move (R26, R244). -/
def writeTextIn (t : Text) (s : State) : Outcome :=
  if t.length ≤ Config.maxInChars then .next { s with textIn := some t }
  else .fault (.oversizedWrite .textIn)

/-- The read returns `d` to the host; nothing of the core changes. -/
def returnRead (d : ReadData) (s : State) : Outcome := .next { s with readData := some d }

/-- The read returns `d`, a free value, to the host; the counter moves on to the next free value (log 12). -/
def returnFree (d : ReadData) (s : State) : Outcome := returnRead d { s with freeReads := s.freeReads + 1 }

/-- A host read (R40): CMD is refused (R23); an output with no value faults (R31); an input is read whatever
it holds (R24 to R26), and with no value it returns a free value of its type (log 12). -/
def hostRead (r : Reg) (s : State) : Outcome :=
  match r with
  | .cmd => .refused .readOfCmd
  | .valueIn =>
    match s.valueIn with
    | none => returnFree (.value (Config.unwrittenValue s.freeReads)) s
    | some v => returnRead (.value v) s
  | .bytesIn =>
    match s.bytesIn with
    | none => returnFree (.bytes ((Config.unwrittenBytes s.freeReads).take Config.maxInBytes)) s
    | some b => returnRead (.bytes b) s
  | .textIn =>
    match s.textIn with
    | none => returnFree (.text ((Config.unwrittenText s.freeReads).take Config.maxInChars)) s
    | some t => returnRead (.text t) s
  | .status => returnRead (.status s.status) s
  | .valueOut =>
    match s.valueOut with
    | none => .fault (.outputHasNoValue .valueOut)
    | some v => returnRead (.value v) s
  | .bytesOut =>
    match s.bytesOut with
    | none => .fault (.outputHasNoValue .bytesOut)
    | some b => returnRead (.bytes b) s
  | .textOut =>
    match s.textOut with
    | none => .fault (.outputHasNoValue .textOut)
    | some t => returnRead (.text t) s

/-- A host write of CMD (R23, R243): the word is checked before any operand is read (R81); a rejected word
raises IllegalCommand (R205), an accepted one runs its command to the end at once. -/
def writeCmd (w : CmdWord) (s : State) : Outcome :=
  match decode w with
  | .error _ => abort .illegalCommand { s with cmd := some w }
  | .ok i => exec i { s with cmd := some w }

/-- One host move on an idle core (R40, R244). -/
def hostMove (m : HostMove) (s : State) : Outcome :=
  match m with
  | .writeValueIn v => writeValueIn v s
  | .writeBytesIn b => writeBytesIn b s
  | .writeTextIn t => writeTextIn t s
  | .writeCmd w => writeCmd w s
  | .writeStatus _ => .refused (.writeOfReadOnly .status)
  | .writeValueOut _ => .refused (.writeOfReadOnly .valueOut)
  | .writeBytesOut _ => .refused (.writeOfReadOnly .bytesOut)
  | .writeTextOut _ => .refused (.writeOfReadOnly .textOut)
  | .read r => hostRead r s
  | .reset => .next (resetCore s)

/-- The text that stands for an operand the host has not written, in `supplyOperands`: "00", the shortest
legal text (R6, MIN_BYTE_TEXT). -/
def defaultText : Text := [sym 0, sym 0]

/-- The host's duty of R242 before a command: each register the command reads holds a value. A register
that holds one keeps it. Used only by `State.withFetchWord` (log 17). -/
def supplyOperands (i : Instr) (s : State) : State :=
  match i with
  | .encodeUint64 => { s with valueIn := some (s.valueIn.getD 0#64) }
  | .decodeUint64 => { s with textIn := some (s.textIn.getD defaultText) }
  | .encodeBytes => { s with bytesIn := some (s.bytesIn.getD []) }
  | .decodeBytes => { s with textIn := some (s.textIn.getD defaultText) }
  | .beRead => { s with bytesIn := some (s.bytesIn.getD []) }
  | .beWrite _ => { s with valueIn := some (s.valueIn.getD 0#64) }

end Sys2Proof.Machine
end

