-- ==== Sys2Proof/Machine/Stepped.lean ====
section
/-! DEFINITION. A command in progress. The atomic model never leaves one between two steps (10_state.md
R38); this file gives the working state its meaning all the same: how a command in progress ends, and the
optional stepped reading of 40_integer_codec.md R108 and R118 and of 41_byte_codec.md R160, in which a
CMD write starts a command and each later step runs one loop iteration. Log 15. -/

namespace Sys2Proof.Machine

/-- Puts a working state into the core. -/
def keepWork (w : Work) (s : State) : Outcome := .next { s with work := some w }

/-- Runs the command in progress to its end: every loop iteration it has left, then its completion (R38). -/
def finishWork (w : Work) (s : State) : Outcome :=
  match w with
  | .encodeZeroTest => execEncodeUint64 s
  | .encodePlaces e => succeedText (runPlaces (e.k + 1) e).out s
  | .decodeEmptyTest => execDecodeUint64 s
  | .decodeSymbols d =>
    withTextIn s fun t => finishValue (decodeFrom Config.sameSymbolOrder d.acc (t.drop d.i)) s
  | .fragment f =>
    withBytesIn s fun b =>
      succeedText (if b = [] then encodeBlocks b else (fragmentLoop b (blockCount b.length) f).out) s
  | .deframeLength => execDecodeBytes s
  | .deframeTerminator =>
    withTextIn s fun t => finishBytes (decodeTerminated Config.sameSymbolOrder t) s
  | .deframeWindows d =>
    withTextIn s fun t => finishBytes (deframeAll Config.sameSymbolOrder t d) s

/-- One step of encode_uint64 at a place: it completes after the k = 0 step (R108). -/
def advancePlace (e : IntEncoderWork) (s : State) : Outcome :=
  if e.k = 0 then succeedText (placeStep e).out s else keepWork (.encodePlaces (placeStep e)) s

/-- One step of decode_uint64 at a symbol: it completes after the last symbol or at the first error (R118). -/
def advanceSymbol (t : Text) (d : IntDecoderWork) (s : State) : Outcome :=
  match t.drop d.i with
  | [] => succeedValue d.acc s
  | c :: rest =>
    match decodeSymbol Config.sameSymbolOrder d.acc c with
    | .error e => abort e s
    | .ok a =>
      if rest = [] then succeedValue a s else keepWork (.decodeSymbols { acc := a, i := d.i + 1 }) s

/-- One step of encode_bytes: a window, or the empty sequence's one step (R160). -/
def advanceFragment (b : Bytes) (f : FragmenterWork) (s : State) : Outcome :=
  if b = [] then succeedText (encodeBlocks b) s
  else if b.length ≤ (fragmentStep b f).off then succeedText (fragmentStep b f).out s
  else keepWork (.fragment (fragmentStep b f)) s

/-- One step of decode_bytes at a window (R160). -/
def advanceDeframe (t : Text) (d : DeframerWork) (s : State) : Outcome :=
  match deframeStep Config.sameSymbolOrder t d with
  | .error e => abort e s
  | .ok d' => if d'.cl ≤ d'.off then succeedBytes d'.out s else keepWork (.deframeWindows d') s

/-- One step of the command in progress (R108, R118, R160). -/
def advance (w : Work) (s : State) : Outcome :=
  match w with
  | .encodeZeroTest =>
    withValueIn s fun v =>
      if v = 0#64 then succeedText [sym 0] s else keepWork (.encodePlaces (encodeStart v)) s
  | .encodePlaces e => advancePlace e s
  | .decodeEmptyTest =>
    withTextIn s fun t =>
      if t = [] then abort .emptyInput s else keepWork (.decodeSymbols { acc := 0#64, i := 0 }) s
  | .decodeSymbols d => withTextIn s fun t => advanceSymbol t d s
  | .fragment f => withBytesIn s fun b => advanceFragment b f s
  | .deframeLength =>
    withTextIn s fun t =>
      if t.length < Config.minByteText then abort .emptyInput s else keepWork .deframeTerminator s
  | .deframeTerminator =>
    withTextIn s fun t =>
      match terminatorValue t with
      | .error e => abort e s
      | .ok lbs => keepWork (.deframeWindows (deframeStart t lbs)) s
  | .deframeWindows d => withTextIn s fun t => advanceDeframe t d s

/-- Starts a command in the stepped reading. The big-endian commands have no working state and complete in
this one step; the others are refused where their operand has no value (R41). -/
def startCommand (i : Instr) (s : State) : Outcome :=
  match i with
  | .encodeUint64 => withValueIn s fun _ => keepWork .encodeZeroTest s
  | .decodeUint64 => withTextIn s fun _ => keepWork .decodeEmptyTest s
  | .encodeBytes => withBytesIn s fun b => keepWork (.fragment (fragmentStart b)) s
  | .decodeBytes => withTextIn s fun _ => keepWork .deframeLength s
  | .beRead => exec .beRead s
  | .beWrite len => exec (.beWrite len) s

/-- A host write of CMD in the stepped reading (R81, R243). -/
def startCmd (w : CmdWord) (s : State) : Outcome :=
  match decode w with
  | .error _ => abort .illegalCommand { s with cmd := some w }
  | .ok i => startCommand i { s with cmd := some w }

/-- One step of the stepped reading. While a command is in progress no host move but reset lands (R240,
R245); on an idle core only the CMD write differs from the atomic model. -/
def microStep (s : State) : Outcome :=
  match s.work, s.moves with
  | some _, .reset :: rest => .next (resetCore { s with moves := rest })
  | some w, _ => advance w s
  | none, [] => .next s
  | none, .writeCmd w :: rest => startCmd w { s with moves := rest }
  | none, m :: rest => hostMove m { s with moves := rest }

/-- At most `fuel` steps of the stepped reading, stopping as soon as no command is in progress. -/
def microFinish : Nat → State → Outcome
  | 0, s => .next s
  | fuel + 1, s =>
    match s.work with
    | none => .next s
    | some w =>
      match advance w s with
      | .next s' => microFinish fuel s'
      | .fault f => .fault f
      | .refused r => .refused r

end Sys2Proof.Machine
end

