-- ==== Sys2Proof/Machine/Step.lean ====
section
/-! DEFINITION. One step of the core (70_reset_and_hazards.md R243) and the placing of a command word as
the host's next move. -/

namespace Sys2Proof.Machine

/-- An idle core takes the host's oldest pending move; with none it holds its registers (R219). A command
in progress ends before any host move but reset (R245), which abandons it (R240). -/
def step (s : State) : Host.Outcome State Fault Refusal :=
  match s.work, s.moves with
  | some _, .reset :: rest => .next (resetCore { s with moves := rest })
  | some w, _ => finishWork w s
  | none, [] => .next s
  | none, m :: rest => hostMove m { s with moves := rest }

/-- `s` with a write of the word to CMD as the host's next move, on an idle core whose operands the host
has written (R242, R243; log 17). -/
def State.withFetchWord (s : State) (nbits w : Nat) : State :=
  match tableCmdWord nbits w with
  | none => s
  | some c =>
    match decode c with
    | .error _ => { s with work := none, moves := .writeCmd c :: s.moves }
    | .ok i => { supplyOperands i s with work := none, moves := .writeCmd c :: s.moves }

end Sys2Proof.Machine
end

