-- ==== Sys2Proof/Machine/Assembler.lean ====
section
/-! DEFINITION. The host-side statements (30_encoding.md R86) and the pseudo-instructions (R87), as host
moves. AssemblerText.lean reads their written form. -/

namespace Sys2Proof.Machine

/-- The registers `rd` names (R86). -/
inductive RdReg where
  | status | valueOut | bytesOut | textOut
  deriving DecidableEq, Repr

/-- One statement of a host program (R86). -/
inductive Stmt where
  | wrValueIn (v : U64)
  | wrBytesIn (b : Bytes)
  | wrTextIn (t : Text)
  | cmd (i : Instr)          -- `cmd <mnemonic>` and `cmd be_write, <n>`
  | cmdRaw (w : CmdWord)     -- any word, reserved ones included
  | rd (r : RdReg)
  deriving DecidableEq, Repr

/-- The pseudo-instructions (R87). -/
inductive Pseudo where
  | encodeUint64 (v : U64)
  | decodeUint64 (t : Text)
  | encodeBytes (b : Bytes)
  | decodeBytes (t : Text)
  | beRead (b : Bytes)
  | beWrite (v : U64) (len : BitVec 4)
  deriving DecidableEq, Repr

/-- The interface register an `rd` reads. -/
def readReg : RdReg → Reg
  | .status => .status
  | .valueOut => .valueOut
  | .bytesOut => .bytesOut
  | .textOut => .textOut

/-- The host move of a statement (R86). -/
def stmtMove : Stmt → HostMove
  | .wrValueIn v => .writeValueIn v
  | .wrBytesIn b => .writeBytesIn b
  | .wrTextIn t => .writeTextIn t
  | .cmd i => .writeCmd (encode i)
  | .cmdRaw w => .writeCmd w
  | .rd r => .read (readReg r)

/-- The two statements a pseudo-instruction stands for, in that order (R87; log 14). -/
def expandPseudo : Pseudo → List Stmt
  | .encodeUint64 v => [.wrValueIn v, .cmd .encodeUint64]
  | .decodeUint64 t => [.wrTextIn t, .cmd .decodeUint64]
  | .encodeBytes b => [.wrBytesIn b, .cmd .encodeBytes]
  | .decodeBytes t => [.wrTextIn t, .cmd .decodeBytes]
  | .beRead b => [.wrBytesIn b, .cmd .beRead]
  | .beWrite v len => [.wrValueIn v, .cmd (.beWrite len)]

/-- The host's pending moves, then those of a host program's statements in order (R249: the program ends
when its last statement has completed). -/
def loadStatements (p : List Stmt) (s : State) : State := { s with moves := s.moves ++ p.map stmtMove }

end Sys2Proof.Machine
end

