-- ==== Sys2Proof/Machine/Platform.lean ====
section
/-! DEFINITION. Several instances (60_exceptions.md R217; 20_memory.md R62): each has its own state, and
they share only the constant alphabet. What stops one instance stops no other (log 18). -/

namespace Sys2Proof.Machine

/-- One instance of a platform. -/
structure Instance where
  /-- Its state; after a fault, the state it faulted in. -/
  state : State
  /-- The refusals of its host's moves, oldest first. -/
  refusals : List Refusal
  /-- The fault that stopped it, if one did. -/
  fault : Option Fault
  deriving DecidableEq, Repr

/-- The instances of a platform. They have no identifiers of their own (R217): a position only says which
instance a step is of. -/
abbrev Platform := List Instance

/-- What a refused host move leaves: the state as it was, the move gone (93_implementation_defined.md,
`refuse`: the move is rejected before it starts and the state does not change). A command in progress is no
host move and stays. -/
def afterRefusal (s : State) : State :=
  match s.work with
  | none => { s with moves := s.moves.tail }
  | some _ => s

/-- One step of one instance: a refused move is noted and the instance goes on; a fault stops it. -/
def instanceStep (x : Instance) : Instance :=
  match x.fault with
  | some _ => x
  | none =>
    match step x.state with
    | .next s => { x with state := s }
    | .refused r => { x with state := afterRefusal x.state, refusals := x.refusals ++ [r] }
    | .fault f => { x with fault := some f }

/-- `n` steps of one instance alone. -/
def instanceRun : Nat → Instance → Instance
  | 0, x => x
  | n + 1, x => instanceRun n (instanceStep x)

/-- One step of the instance at position `j`; a position without one has none to step. -/
def platformStep (j : Nat) (p : Platform) : Platform := p.modify j instanceStep

/-- The instances step in the order of the schedule, which nothing constrains (R62). -/
def platformRun : List Nat → Platform → Platform
  | [], p => p
  | j :: rest, p => platformRun rest (platformStep j p)

end Sys2Proof.Machine
end

