-- ==== Sys2Proof/Safety.lean ====
section
/-! DEFINITION. The vocabulary of the claims: the value of a text and of a byte sequence (30_encoding.md
R74; 42_big_endian.md R180), canonical texts, the host's duty (70_reset_and_hazards.md R242, R244), the
command a working state belongs to, and the invariant of the core's state. -/

namespace Sys2Proof.Machine

/-- The digit value at index i; 0 where there is none. -/
def digitAt (t : Text) (i : Nat) : Nat := ((t[i]?).bind val).getD 0

/-- `Σ VAL(t[i]) · 62^(L-1-i)`, L the length (R74). -/
def textValue (t : Text) : Nat :=
  ((List.range t.length).map fun i => digitAt t i * 62 ^ (t.length - 1 - i)).sum

/-- `Σ b[i] · 256^(n-1-i)`, n the length (R180). -/
def bytesValue (b : Bytes) : Nat :=
  ((List.range b.length).map fun i => (b.getD i 0#8).toNat * 256 ^ (b.length - 1 - i)).sum

/-- Every symbol is in the alphabet (R72). -/
def inAlphabet (t : Text) : Bool := t.all fun c => (val c).isSome

/-- An encoded integer string of R74: alphabet symbols, at least one, no leading zero symbol but in "0". -/
def canonicalText (t : Text) : Bool :=
  inAlphabet t && t != [] && (t.head? != some (sym 0) || t == [sym 0])

/-- The input register a command reads holds a value (R80, R242). -/
def operandHeld (i : Instr) (s : State) : Bool :=
  match i with
  | .encodeUint64 => s.valueIn.isSome
  | .decodeUint64 => s.textIn.isSome
  | .encodeBytes => s.bytesIn.isSome
  | .decodeBytes => s.textIn.isSome
  | .beRead => s.bytesIn.isSome
  | .beWrite _ => s.valueIn.isSome

/-- The two states hold the same value in the input register the command reads (R39, R80). -/
def sameOperand (i : Instr) (s t : State) : Prop :=
  match i with
  | .encodeUint64 => s.valueIn = t.valueIn
  | .decodeUint64 => s.textIn = t.textIn
  | .encodeBytes => s.bytesIn = t.bytesIn
  | .decodeBytes => s.textIn = t.textIn
  | .beRead => s.bytesIn = t.bytesIn
  | .beWrite _ => s.valueIn = t.valueIn

/-- How many steps of the stepped reading a command takes at most after its start (R108, R118, R160,
R248): the zero test and 11 places; the empty test and the symbols; the windows; the length check, the
terminator and the windows; none for the big-endian commands. -/
def stepBound (i : Instr) (s : State) : Nat :=
  match i with
  | .encodeUint64 => 1 + Config.maxIntSymbols
  | .decodeUint64 => 1 + (s.textIn.getD []).length
  | .encodeBytes => max 1 (blockCount (s.bytesIn.getD []).length)
  | .decodeBytes => 2 + windowCount ((s.textIn.getD []).length - 1)
  | .beRead => 0
  | .beWrite _ => 0

/-- A host may read the register (R40): an output only while it holds a value, CMD never. -/
def readableReg (r : Reg) (s : State) : Bool :=
  match r with
  | .cmd => false
  | .valueIn => true
  | .bytesIn => true
  | .textIn => true
  | .status => true
  | .valueOut => s.valueOut.isSome
  | .bytesOut => s.bytesOut.isSome
  | .textOut => s.textOut.isSome

/-- The host keeps its duty with this move (R242, R244): writes within capacity, commands whose operand is
written, no read of CMD or of an output without a value, no write of a read-only register. -/
def dutifulMove (m : HostMove) (s : State) : Prop :=
  match m with
  | .writeValueIn _ => True
  | .writeBytesIn b => b.length ≤ Config.maxInBytes
  | .writeTextIn t => t.length ≤ Config.maxInChars
  | .writeCmd w => ∀ i, decode w = .ok i → operandHeld i s = true
  | .writeStatus _ => False
  | .writeValueOut _ => False
  | .writeBytesOut _ => False
  | .writeTextOut _ => False
  | .read r => readableReg r s = true
  | .reset => True

/-- The command a working state belongs to (R33 to R37). -/
def workCommand (w : Work) : Instr :=
  match w with
  | .encodeZeroTest => .encodeUint64
  | .encodePlaces _ => .encodeUint64
  | .decodeEmptyTest => .decodeUint64
  | .decodeSymbols _ => .decodeUint64
  | .fragment _ => .encodeBytes
  | .deframeLength => .decodeBytes
  | .deframeTerminator => .decodeBytes
  | .deframeWindows _ => .decodeBytes

/-- The working state is one its command reaches on the operand the core holds (R38, R108, R118, R160). -/
def workReached (w : Work) (s : State) : Prop :=
  match w with
  | .encodeZeroTest => s.valueIn.isSome = true
  | .encodePlaces e =>
    ∃ v j, s.valueIn = some v ∧ v ≠ 0#64 ∧ j ≤ 10 ∧ e = runPlaces j (encodeStart v)
  | .decodeEmptyTest => s.textIn.isSome = true
  | .decodeSymbols d =>
    ∃ t, s.textIn = some t ∧ d.i < t.length ∧
      decodeFrom Config.sameSymbolOrder 0#64 (t.take d.i) = .ok d.acc
  | .fragment f =>
    ∃ b j, s.bytesIn = some b ∧ f = fragmentLoop b j (fragmentStart b) ∧ (b = [] ∨ f.off < b.length)
  | .deframeLength => s.textIn.isSome = true
  | .deframeTerminator => ∃ t, s.textIn = some t ∧ 2 ≤ t.length
  | .deframeWindows d =>
    ∃ t lbs j, s.textIn = some t ∧ 2 ≤ t.length ∧ terminatorValue t = .ok lbs ∧
      deframeLoop Config.sameSymbolOrder t j (deframeStart t lbs) = .ok d ∧ d.off < d.cl

/-- What holds of every state of the core between two steps: STATUS reads as R27 and R200 say, the inputs
fit (R25, R26), the outputs are as R30, R31 and R39 say, and a command in progress is one its operand
leads to (R38). -/
structure State.Inv (s : State) : Prop where
  /-- Bits [7:3] of STATUS read as 0 (R27). -/
  reservedZero : statusReserved s.status = 0#5
  /-- CODE 6 is never written (R200). -/
  codeNotSix : statusCode s.status ≠ 6#3
  /-- BYTES_IN fits (R25). -/
  bytesInFits : ∀ b, s.bytesIn = some b → b.length ≤ Config.maxInBytes
  /-- TEXT_IN fits (R26). -/
  textInFits : ∀ t, s.textIn = some t → t.length ≤ Config.maxInChars
  /-- An output holds a value only after a command that succeeded (R31). -/
  outputsAfterOk : statusCode s.status ≠ codeOk → s.valueOut = none ∧ s.bytesOut = none ∧ s.textOut = none
  /-- Only one output holds a value at any time (R31). -/
  oneOutput :
    (s.valueOut = none ∧ s.bytesOut = none) ∨ (s.valueOut = none ∧ s.textOut = none) ∨
      (s.bytesOut = none ∧ s.textOut = none)
  /-- TEXT_OUT only ever holds alphabet codes (R30). -/
  textOutAlphabet : ∀ t, s.textOut = some t → inAlphabet t = true
  /-- TEXT_OUT's capacity (R39). -/
  textOutFits : ∀ t, s.textOut = some t →
    t.length ≤ max 11 (11 * blockCount Config.maxInBytes + 1)
  /-- BYTES_OUT's capacity (R39). -/
  bytesOutFits : ∀ b, s.bytesOut = some b → b.length ≤ 8 * windowCount (Config.maxInChars - 1)
  /-- A command in progress is one that its operand leads to (R38). -/
  workInProgress : ∀ w, s.work = some w → workReached w s

end Sys2Proof.Machine
end

