-- ==== Sys2Proof/Certificates/Slice0/Obligations.lean ====
section
/-! DEFINITION. The statements for the provers, by the spec's files. A statement about a command's result
gives the whole next state as an update of the state before, so it is that command's frame as well. -/

open Sys2Proof Sys2Proof.Machine

/-! ### 30_encoding.md, part A: the alphabet -/

/-- R70: ALPHABET has 62 entries, '0'-'9', 'A'-'Z', 'a'-'z' in their order, by their 8-bit codes. -/
def Obligations.AlphabetRomHoldsTheTable : Prop :=
  alphabet.length = 62 ∧
  (∀ i, i ≤ 9 → alphabet[i]? = some (BitVec.ofNat 8 (0x30 + i))) ∧
  (∀ i, 10 ≤ i → i ≤ 35 → alphabet[i]? = some (BitVec.ofNat 8 (0x41 + (i - 10)))) ∧
  (∀ i, 36 ≤ i → i ≤ 61 → alphabet[i]? = some (BitVec.ofNat 8 (0x61 + (i - 36))))

/-- R73: the two maps are inverse to each other. -/
def Obligations.AlphabetIsABijection : Prop :=
  (∀ v, v ≤ 61 → val (sym v) = some v) ∧
  (∀ c v, val c = some v → v ≤ 61 ∧ sym v = c)

/-- R72: VAL takes the three ranges to their digits, 'A' and 'a' apart, and rejects every other code: the
codes it takes are the ROM's entries, and 194 of the 256 are rejected. -/
def Obligations.ValTakesExactlyTheThreeRanges : Prop :=
  (∀ c : CharCode,
    (0x30 ≤ c.toNat ∧ c.toNat ≤ 0x39 → val c = some (c.toNat - 0x30)) ∧
    (0x41 ≤ c.toNat ∧ c.toNat ≤ 0x5A → val c = some (c.toNat - 0x41 + 10)) ∧
    (0x61 ≤ c.toNat ∧ c.toNat ≤ 0x7A → val c = some (c.toNat - 0x61 + 36)) ∧
    ((c.toNat ≤ 0x2F ∨ 0x3A ≤ c.toNat ∧ c.toNat ≤ 0x40 ∨ 0x5B ≤ c.toNat ∧ c.toNat ≤ 0x60 ∨ 0x7B ≤ c.toNat) →
      val c = none) ∧
    ((val c).isSome = true ↔ c ∈ alphabet)) ∧
  ((List.range 256).filter fun n => (val (BitVec.ofNat 8 n)).isNone).length = 194

/-- R74: every u64 has exactly one encoded integer string, the one ENC gives; the largest is
"LygHa16AHYF", and an 11-symbol one starts with a symbol of value 1 to 21. -/
def Obligations.EveryU64HasOneEncodedString : Prop :=
  (∀ (v : U64) (t : Text), canonicalText t = true ∧ textValue t = v.toNat ↔ t = enc v) ∧
  (∀ v : U64, 1 ≤ (enc v).length ∧ (enc v).length ≤ 11) ∧
  enc 18446744073709551615#64 =
    [0x4C#8, 0x79#8, 0x67#8, 0x48#8, 0x61#8, 0x31#8, 0x36#8, 0x41#8, 0x48#8, 0x59#8, 0x46#8] ∧
  (∀ v : U64, (enc v).length = 11 → ∃ d, 1 ≤ d ∧ d ≤ 21 ∧ (enc v).head? = some (sym d))

/-! ### 30_encoding.md, part B: the command word -/

/-- R81 to R84: the checks of a command word, on its fields as numbers, come before any operand is read;
a word that fails one ends with IllegalCommand and no output, any other runs its command; exactly 14 words
select commands. What CMD holds afterwards is left open here (log 9). -/
def Obligations.CommandWordsAreCheckedFirst : Prop :=
  (∀ (s : State) (w : CmdWord),
    ((w.toNat / 256 ≠ 0 ∨ w.toNat % 16 = 0 ∨ 7 ≤ w.toNat % 16 ∨
        (w.toNat % 16 ≠ 6 ∧ w.toNat / 16 % 16 ≠ 0) ∨ (w.toNat % 16 = 6 ∧ 8 < w.toNat / 16 % 16)) →
      ∃ c, writeCmd w s = .next { s with
        cmd := c, status := 0x05#8, valueOut := none, bytesOut := none, textOut := none, work := none }) ∧
    (w.toNat = 1 → ∃ c, writeCmd w s = exec .encodeUint64 { s with cmd := c }) ∧
    (w.toNat = 2 → ∃ c, writeCmd w s = exec .decodeUint64 { s with cmd := c }) ∧
    (w.toNat = 3 → ∃ c, writeCmd w s = exec .encodeBytes { s with cmd := c }) ∧
    (w.toNat = 4 → ∃ c, writeCmd w s = exec .decodeBytes { s with cmd := c }) ∧
    (w.toNat = 5 → ∃ c, writeCmd w s = exec .beRead { s with cmd := c }) ∧
    (∀ n, n ≤ 8 → w.toNat = 6 + 16 * n →
      ∃ c, writeCmd w s = exec (.beWrite (BitVec.ofNat 4 n)) { s with cmd := c })) ∧
  (∀ w : CmdWord, (∃ i, decode w = .ok i) ↔
    w ∈ [0x01#32, 0x02#32, 0x03#32, 0x04#32, 0x05#32, 0x06#32, 0x16#32, 0x26#32, 0x36#32, 0x46#32,
      0x56#32, 0x66#32, 0x76#32, 0x86#32])

/-- Decode and encode agree, both ways, on every word and every command: no bit of a word is dropped. -/
def Obligations.DecodeAcceptsExactlyTheEncodings : Prop :=
  ∀ (w : CmdWord) (i : Instr), decode w = .ok i ↔ i.wellFormed = true ∧ encode i = w

/-- A few of R80's full command words and of R81's rejections (95_test_vectors.md C1 to C12). -/
def Obligations.SpecCommandWordsDecode : Prop :=
  decode 0x00000001#32 = .ok .encodeUint64 ∧ decode 0x00000002#32 = .ok .decodeUint64 ∧
  decode 0x00000003#32 = .ok .encodeBytes ∧ decode 0x00000004#32 = .ok .decodeBytes ∧
  decode 0x00000005#32 = .ok .beRead ∧ decode 0x00000006#32 = .ok (.beWrite 0#4) ∧
  decode 0x00000086#32 = .ok (.beWrite 8#4) ∧ decode 0x00000000#32 = .error (.reservedOp 0#4) ∧
  decode 0x00000007#32 = .error (.reservedOp 7#4) ∧ decode 0x00000011#32 = .error (.lenNotZero 1#4 1#4) ∧
  decode 0x00000096#32 = .error (.lenTooLarge 9#4) ∧ decode 0x80000003#32 = .error (.reservedBits 0x800000#24)

/-! ### The step -/

/-- A step at an idle core whose oldest move writes an accepted word to CMD is exec of the decoded command,
after the move is taken and CMD holds the word (R243; log 2, log 9). -/
def Obligations.StepRunsTheDecodedCommand : Prop :=
  ∀ (s : State) (w : CmdWord) (rest : List HostMove) (i : Instr),
    s.work = none → s.moves = .writeCmd w :: rest → decode w = .ok i →
      step s = exec i { s with moves := rest, cmd := some w }

/-- R219: an idle core with no host move holds its registers. -/
def Obligations.IdleCoreHoldsItsRegisters : Prop :=
  ∀ s : State, s.work = none → s.moves = [] → step s = .next s

/-- `withFetchWord` makes the next step run its command to a next state, the operands supplied where the
host wrote none (the model's own convention, log 17). -/
def Obligations.FetchWordRunsOnTheNextStep : Prop :=
  ∀ (s : State) (nbits w : Nat) (c : CmdWord) (i : Instr),
    tableCmdWord nbits w = some c → decode c = .ok i →
      step (s.withFetchWord nbits w) = exec i { supplyOperands i s with work := none, cmd := some c } ∧
      ∃ t, step (s.withFetchWord nbits w) = .next t

/-- The host's moves on an idle core (10_state.md R40 with R23 to R31; reads of the inputs as R24 to R26 and
R40 give them, log 12): what each sets or returns, and which are refused or fault. A read of an input without
a value completes too; what it returns is a free value of the input's type, so only its type is claimed. -/
def Obligations.HostMovesFollowTheAccessTable : Prop :=
  ∀ (s : State) (rest : List HostMove), s.work = none →
    (∀ v, s.moves = .writeValueIn v :: rest → step s = .next { s with moves := rest, valueIn := some v }) ∧
    (∀ b : Bytes, s.moves = .writeBytesIn b :: rest → b.length ≤ Config.maxInBytes →
      step s = .next { s with moves := rest, bytesIn := some b }) ∧
    (∀ t : Text, s.moves = .writeTextIn t :: rest → t.length ≤ Config.maxInChars →
      step s = .next { s with moves := rest, textIn := some t }) ∧
    (∀ v, s.moves = .read .valueIn :: rest → s.valueIn = some v →
      step s = .next { s with moves := rest, readData := some (.value v) }) ∧
    (∀ b, s.moves = .read .bytesIn :: rest → s.bytesIn = some b →
      step s = .next { s with moves := rest, readData := some (.bytes b) }) ∧
    (∀ t, s.moves = .read .textIn :: rest → s.textIn = some t →
      step s = .next { s with moves := rest, readData := some (.text t) }) ∧
    (s.moves = .read .valueIn :: rest → s.valueIn = none →
      ∃ v, step s = .next { s with
        moves := rest, readData := some (.value v), freeReads := s.freeReads + 1 }) ∧
    (s.moves = .read .bytesIn :: rest → s.bytesIn = none →
      ∃ b : Bytes, b.length ≤ Config.maxInBytes ∧ step s = .next { s with
        moves := rest, readData := some (.bytes b), freeReads := s.freeReads + 1 }) ∧
    (s.moves = .read .textIn :: rest → s.textIn = none →
      ∃ t : Text, t.length ≤ Config.maxInChars ∧ step s = .next { s with
        moves := rest, readData := some (.text t), freeReads := s.freeReads + 1 }) ∧
    (s.moves = .read .status :: rest → step s = .next { s with moves := rest, readData := some (.status s.status) }) ∧
    (∀ v, s.moves = .read .valueOut :: rest → s.valueOut = some v →
      step s = .next { s with moves := rest, readData := some (.value v) }) ∧
    (∀ b, s.moves = .read .bytesOut :: rest → s.bytesOut = some b →
      step s = .next { s with moves := rest, readData := some (.bytes b) }) ∧
    (∀ t, s.moves = .read .textOut :: rest → s.textOut = some t →
      step s = .next { s with moves := rest, readData := some (.text t) }) ∧
    (s.moves = .read .valueOut :: rest → s.valueOut = none → step s = .fault (.outputHasNoValue .valueOut)) ∧
    (s.moves = .read .bytesOut :: rest → s.bytesOut = none → step s = .fault (.outputHasNoValue .bytesOut)) ∧
    (s.moves = .read .textOut :: rest → s.textOut = none → step s = .fault (.outputHasNoValue .textOut)) ∧
    (s.moves = .read .cmd :: rest → step s = .refused .readOfCmd) ∧
    (∀ b, s.moves = .writeStatus b :: rest → step s = .refused (.writeOfReadOnly .status)) ∧
    (∀ v, s.moves = .writeValueOut v :: rest → step s = .refused (.writeOfReadOnly .valueOut)) ∧
    (∀ b, s.moves = .writeBytesOut b :: rest → step s = .refused (.writeOfReadOnly .bytesOut)) ∧
    (∀ t, s.moves = .writeTextOut t :: rest → step s = .refused (.writeOfReadOnly .textOut))

/-- A step of an idle core answers a next state exactly where the host keeps its duty (R242, R244): no
dutiful host meets a fault, a refusal or a stop. The stop on an oversized write is the model's form of
R244's missing move (log 11); that an input is read whatever it holds is R40's, against R244's table (log 12). -/
def Obligations.StepCompletesExactlyForADutifulHost : Prop :=
  ∀ s : State, s.work = none →
    ((∃ t, step s = .next t) ↔ ∀ m rest, s.moves = m :: rest → dutifulMove m s)

/-! ### Reset -/

/-- R41: the reset values, and the refusal of a command whose operand has no value. -/
def Obligations.ResetLeavesNoValueAndCommandsNeedOperands : Prop :=
  (State.reset.cmd = none ∧ State.reset.valueIn = none ∧ State.reset.bytesIn = none ∧
    State.reset.textIn = none ∧ State.reset.status = 0x07#8 ∧ State.reset.valueOut = none ∧
    State.reset.bytesOut = none ∧ State.reset.textOut = none ∧ State.reset.work = none) ∧
  (∀ s : State,
    (s.valueIn = none → exec .encodeUint64 s = .refused (.operandNotWritten .valueIn)) ∧
    (s.textIn = none → exec .decodeUint64 s = .refused (.operandNotWritten .textIn)) ∧
    (s.bytesIn = none → exec .encodeBytes s = .refused (.operandNotWritten .bytesIn)) ∧
    (s.textIn = none → exec .decodeBytes s = .refused (.operandNotWritten .textIn)) ∧
    (s.bytesIn = none → exec .beRead s = .refused (.operandNotWritten .bytesIn)) ∧
    (∀ len : BitVec 4, len.toNat ≤ 8 → s.valueIn = none →
      exec (.beWrite len) s = .refused (.operandNotWritten .valueIn)))

/-- R240: a reset move gives every register its reset value, and abandons a command in progress without an
output, in the atomic and in the stepped reading; it has no other effect (the host's own fields, log 16). -/
def Obligations.ResetAbandonsACommandInProgress : Prop :=
  ∀ (s : State) (rest : List HostMove), s.moves = .reset :: rest →
    ∃ t, step s = .next t ∧ microStep s = .next t ∧
      t.cmd = none ∧ t.valueIn = none ∧ t.bytesIn = none ∧ t.textIn = none ∧ t.status = 0x07#8 ∧
      t.valueOut = none ∧ t.bytesOut = none ∧ t.textOut = none ∧ t.work = none ∧
      t.moves = rest ∧ t.readData = s.readData ∧ t.freeReads = s.freeReads

/-! ### 40_integer_codec.md -/

/-- R101, R106: encode_uint64 completes with the numeral of VALUE_IN, most significant symbol first, without
a superfluous leading zero symbol; nothing else changes. -/
def Obligations.EncodeUint64WritesTheNumeral : Prop :=
  ∀ (s : State) (v : U64), s.valueIn = some v →
    ∃ t : Text,
      exec .encodeUint64 s = .next { s with
        status := 0x00#8, valueOut := none, bytesOut := none, textOut := some t, work := none } ∧
      inAlphabet t = true ∧ textValue t = v.toNat ∧ 1 ≤ t.length ∧ t.length ≤ 11 ∧
      (v = 0#64 → t = [0x30#8]) ∧
      (v ≠ 0#64 → t.head? ≠ some 0x30#8 ∧ 62 ^ (t.length - 1) ≤ v.toNat ∧ v.toNat < 62 ^ t.length)

/-- R103 to R105: the encoder's places. Before place j the remaining value is v mod 62^(11-j), its digit is
at most 61 (at most 21 at the first place), STARTED is set exactly when a nonzero digit has been met, and
a step leaves the remainder and emits the digit exactly when STARTED is set. -/
def Obligations.PlaceStepsExtractTheDigits : Prop :=
  ∀ (v : U64) (j : Nat), j ≤ 10 →
    (runPlaces j (encodeStart v)).k = 10 - j ∧
    (runPlaces j (encodeStart v)).rem.toNat = v.toNat % 62 ^ (11 - j) ∧
    (runPlaces j (encodeStart v)).rem.toNat / 62 ^ (10 - j) ≤ 61 ∧
    (j = 0 → (runPlaces j (encodeStart v)).rem.toNat / 62 ^ 10 ≤ 21) ∧
    (runPlaces j (encodeStart v)).started = decide (62 ^ (11 - j) ≤ v.toNat) ∧
    (runPlaces (j + 1) (encodeStart v)).rem.toNat =
      (runPlaces j (encodeStart v)).rem.toNat % 62 ^ (10 - j) ∧
    (runPlaces (j + 1) (encodeStart v)).out =
      (if 62 ^ (10 - j) ≤ v.toNat then
        (runPlaces j (encodeStart v)).out ++
          [sym ((runPlaces j (encodeStart v)).rem.toNat / 62 ^ (10 - j))]
      else (runPlaces j (encodeStart v)).out) ∧
    (runPlaces 11 (encodeStart v)).rem = 0#64

/-- R112: decode_uint64 of a text of alphabet symbols whose value fits completes with that value, whatever
the length; after each symbol the accumulator holds the value of the symbols read. -/
def Obligations.DecodeUint64ReturnsTheValue : Prop :=
  ∀ (s : State) (t : Text), s.textIn = some t → t ≠ [] → inAlphabet t = true →
    textValue t ≤ 18446744073709551615 →
      exec .decodeUint64 s = .next { s with
        status := 0x00#8, valueOut := some (BitVec.ofNat 64 (textValue t)), bytesOut := none,
        textOut := none, work := none } ∧
      (∀ i, i ≤ t.length → decodeFrom Config.sameSymbolOrder 0#64 (t.take i) =
        .ok (BitVec.ofNat 64 (textValue (t.take i))))

/-- R111, R113: decode_uint64 of the empty text is EmptyInput, of one symbol that symbol's value; a symbol `c`
outside the alphabet after symbols that pass is InvalidCharacter and what follows it is not examined, but
where acc·62 already exceeds 2^64 - 1 as well: there SAME_SYMBOL_ORDER decides (R115). -/
def Obligations.DecodeUint64RejectsEmptyAndInvalidTexts : Prop :=
  (∀ s : State, s.textIn = some [] →
    exec .decodeUint64 s = .next { s with
      status := 0x01#8, valueOut := none, bytesOut := none, textOut := none, work := none }) ∧
  (∀ (s : State) (c : CharCode) (d : Nat), s.textIn = some [c] → val c = some d →
    exec .decodeUint64 s = .next { s with
      status := 0x00#8, valueOut := some (BitVec.ofNat 64 d), bytesOut := none, textOut := none,
      work := none }) ∧
  (∀ (s : State) (p : Text) (c : CharCode) (r : Text), s.textIn = some (p ++ c :: r) →
    inAlphabet p = true → textValue p ≤ 18446744073709551615 → val c = none →
    (textValue p * 62 ≤ 18446744073709551615 →
      exec .decodeUint64 s = .next { s with
        status := 0x02#8, valueOut := none, bytesOut := none, textOut := none, work := none }) ∧
    (18446744073709551615 < textValue p * 62 →
      exec .decodeUint64 s = .next { s with
        status := if Config.sameSymbolOrder = .invalidFirst then 0x02#8 else 0x03#8
        valueOut := none, bytesOut := none, textOut := none, work := none }))

/-- R116 (the spec's derivation from R112 to R114): a symbol of the alphabet that takes the value past
2^64 - 1 ends decode_uint64 with Overflow, whatever follows it. -/
def Obligations.DecodeUint64OverflowsAtTheFirstSuchSymbol : Prop :=
  ∀ (s : State) (p : Text) (c : CharCode) (r : Text) (d : Nat), s.textIn = some (p ++ c :: r) →
    inAlphabet p = true → textValue p ≤ 18446744073709551615 → val c = some d →
    18446744073709551615 < textValue p * 62 + d →
      exec .decodeUint64 s = .next { s with
        status := 0x03#8, valueOut := none, bytesOut := none, textOut := none, work := none }

/-- R115: the parameter SAME_SYMBOL_ORDER shows on exactly the texts in which one symbol is invalid and
arrives when acc·62 already exceeds 2^64 - 1, and there each value gives its own error. -/
def Obligations.SameSymbolOrderShowsOnlyThere : Prop :=
  ∀ t : Text,
    (dec .invalidFirst t ≠ dec .overflowFirst t ↔
      ∃ p c r, t = p ++ c :: r ∧ inAlphabet p = true ∧ textValue p ≤ 18446744073709551615 ∧
        val c = none ∧ 18446744073709551615 < textValue p * 62) ∧
    (dec .invalidFirst t ≠ dec .overflowFirst t →
      dec .invalidFirst t = .error .invalidCharacter ∧ dec .overflowFirst t = .error .overflow)

/-- R114: a symbol overflows exactly by the threshold test, and otherwise the exact sum is the new
accumulator: nothing wraps. -/
def Obligations.OverflowIsTheThresholdTest : Prop :=
  ∀ (order : Config.SymbolOrder) (acc : U64) (c : CharCode) (d : Nat), val c = some d →
    (decodeSymbol order acc c = .error .overflow ↔
      297528130221121800 < acc.toNat ∨ (acc.toNat = 297528130221121800 ∧ 15 < d)) ∧
    (decodeSymbol order acc c = .error .overflow ↔ 18446744073709551615 < acc.toNat * 62 + d) ∧
    (acc.toNat * 62 + d ≤ 18446744073709551615 →
      ∃ a : U64, decodeSymbol order acc c = .ok a ∧ a.toNat = acc.toNat * 62 + d)

/-- R107: decode_uint64 of the text encode_uint64 wrote gives the value back, through the machine. -/
def Obligations.IntegerRoundTrip : Prop :=
  ∀ (s s1 : State) (v : U64), s.valueIn = some v → exec .encodeUint64 s = .next s1 →
    ∃ t : Text, s1.textOut = some t ∧
      (v = 0#64 → t = [0x30#8]) ∧ (v ≠ 0#64 → t.head? ≠ some 0x30#8) ∧
      exec .decodeUint64 { s1 with textIn := some t } = .next { s1 with
        textIn := some t, status := 0x00#8, valueOut := some v, bytesOut := none, textOut := none,
        work := none }

/-- R117: DEC is the inverse of ENC, it takes leading zero symbols and gives the canonical string's value,
so it is not injective, and ENC gives a decoded text back exactly when the text is canonical. -/
def Obligations.EncodeInvertsDecodeOnCanonicalTexts : Prop :=
  ∀ order : Config.SymbolOrder,
    (∀ v : U64, dec order (enc v) = .ok v) ∧
    (∀ t : Text, t ≠ [] → dec order (sym 0 :: t) = dec order t) ∧
    (∀ (t : Text) (v : U64), dec order t = .ok v → (enc v = t ↔ canonicalText t = true))

/-! ### 41_byte_codec.md -/

/-- R141 to R145: encode_bytes completes with "00" for no bytes, and else with one 11-symbol group for each
8-byte block before the last and then the last block unpadded and its length's symbol. -/
def Obligations.EncodeBytesFramesTheBlocks : Prop :=
  ∀ s : State,
    (s.bytesIn = some [] → exec .encodeBytes s = .next { s with
      status := 0x00#8, valueOut := none, bytesOut := none, textOut := some [0x30#8, 0x30#8],
      work := none }) ∧
    (∀ b : Bytes, b ≠ [] → s.bytesIn = some b →
      ∃ (blocks : List Bytes) (final : Bytes),
        b = blocks.flatten ++ final ∧ (∀ x ∈ blocks, x.length = 8) ∧
        1 ≤ final.length ∧ final.length ≤ 8 ∧
        (∀ x ∈ blocks, (enc (beParse x)).length ≤ 11) ∧
        exec .encodeBytes s = .next { s with
          status := 0x00#8, valueOut := none, bytesOut := none
          textOut := some (
            (blocks.map fun x =>
              List.replicate (11 - (enc (beParse x)).length) 0x30#8 ++ enc (beParse x)).flatten ++
            enc (beParse final) ++ [BitVec.ofNat 8 (0x30 + final.length)])
          work := none })

/-- R76: the last symbol's value is the length of the final block. -/
def Obligations.TerminatorIsTheFinalBlockLength : Prop :=
  ∀ b : Bytes, ∃ c, (encodeBlocks b).getLast? = some c ∧
    val c = some (if b.length = 0 then 0 else if b.length % 8 = 0 then 8 else b.length % 8)

/-- R146: the length of EB's text, with b = ceil(n / 8) and the value of the final block, and the longest
ENC of a final block of each length. -/
def Obligations.EncodedTextLength : Prop :=
  (encodeBlocks []).length = 2 ∧
  (∀ (blocks : List Bytes) (final : Bytes), (∀ x ∈ blocks, x.length = 8) → 1 ≤ final.length →
    final.length ≤ 8 →
    blocks.length + 1 = ((blocks.flatten ++ final).length + 7) / 8 ∧
    (encodeBlocks (blocks.flatten ++ final)).length =
      11 * blocks.length + (enc (beParse final)).length + 1 ∧
    11 * blocks.length + 2 ≤ (encodeBlocks (blocks.flatten ++ final)).length ∧
    (encodeBlocks (blocks.flatten ++ final)).length ≤ 11 * (blocks.length + 1) + 1) ∧
  (∀ final : Bytes,
    (final.length = 1 → (enc (beParse final)).length ≤ 2) ∧
    (final.length = 2 → (enc (beParse final)).length ≤ 3) ∧
    (final.length = 3 → (enc (beParse final)).length ≤ 5) ∧
    (final.length = 4 → (enc (beParse final)).length ≤ 6) ∧
    (final.length = 5 → (enc (beParse final)).length ≤ 7) ∧
    (final.length = 6 → (enc (beParse final)).length ≤ 9) ∧
    (final.length = 7 → (enc (beParse final)).length ≤ 10) ∧
    (final.length = 8 → (enc (beParse final)).length ≤ 11)) ∧
  (enc (BitVec.ofNat 64 (2 ^ 8 - 1))).length = 2 ∧ (enc (BitVec.ofNat 64 (2 ^ 16 - 1))).length = 3 ∧
  (enc (BitVec.ofNat 64 (2 ^ 24 - 1))).length = 5 ∧ (enc (BitVec.ofNat 64 (2 ^ 32 - 1))).length = 6 ∧
  (enc (BitVec.ofNat 64 (2 ^ 40 - 1))).length = 7 ∧ (enc (BitVec.ofNat 64 (2 ^ 48 - 1))).length = 9 ∧
  (enc (BitVec.ofNat 64 (2 ^ 56 - 1))).length = 10 ∧ (enc (BitVec.ofNat 64 (2 ^ 64 - 1))).length = 11

/-- R153 to R155: decode_bytes of full 11-symbol windows, a final window of 1 to 11 symbols and a terminator
of value 0 to 8 completes with 8 bytes a full window and the terminator's count of low-order bytes of the
final one, whatever its value; an error of DEC in a final window, or in a full window with more content after
it, ends the command with that error, and a window never fails as empty. -/
def Obligations.DecodeBytesRendersTheWindows : Prop :=
  ∀ (s : State) (windows : List (Text × U64)) (x rest : Text) (c : CharCode) (n : Nat),
    s.textIn = some ((windows.map Prod.fst).flatten ++ x ++ rest ++ [c]) →
    (∀ y ∈ windows, y.1.length = 11 ∧ dec Config.sameSymbolOrder y.1 = .ok y.2) →
    1 ≤ x.length → x.length ≤ 11 → val c = some n → n ≤ 8 →
      dec Config.sameSymbolOrder x ≠ .error .emptyInput ∧
      (∀ v : U64, rest = [] → dec Config.sameSymbolOrder x = .ok v →
        exec .decodeBytes s = .next { s with
          status := 0x00#8, valueOut := none
          bytesOut := some ((windows.map fun y => beRender y.2 8).flatten ++ beRender v n)
          textOut := none, work := none }) ∧
      (rest = [] ∨ x.length = 11 →
        (dec Config.sameSymbolOrder x = .error .invalidCharacter → exec .decodeBytes s = .next { s with
          status := 0x02#8, valueOut := none, bytesOut := none, textOut := none, work := none }) ∧
        (dec Config.sameSymbolOrder x = .error .overflow → exec .decodeBytes s = .next { s with
          status := 0x03#8, valueOut := none, bytesOut := none, textOut := none, work := none }))

/-- R151, R152: a text of fewer than two symbols is EmptyInput; then, whatever the content, a terminator
outside the alphabet is InvalidCharacter and one of value 9 to 61 is MalformedTerminator; with a terminator of
value 0 to 8 the content alone decides: decode_bytes completes exactly when every window decodes. -/
def Obligations.DecodeBytesChecksLengthThenTerminator : Prop :=
  (∀ (s : State) (t : Text), s.textIn = some t → t.length < 2 →
    exec .decodeBytes s = .next { s with
      status := 0x01#8, valueOut := none, bytesOut := none, textOut := none, work := none }) ∧
  (∀ (s : State) (content : Text) (c : CharCode), s.textIn = some (content ++ [c]) → content ≠ [] →
    (val c = none → exec .decodeBytes s = .next { s with
      status := 0x02#8, valueOut := none, bytesOut := none, textOut := none, work := none }) ∧
    (∀ n, val c = some n → 8 < n → exec .decodeBytes s = .next { s with
      status := 0x04#8, valueOut := none, bytesOut := none, textOut := none, work := none }) ∧
    (∀ n, val c = some n → n ≤ 8 →
      ((∃ t, exec .decodeBytes s = .next t ∧ t.status = 0x00#8) ↔
        ∀ k, 11 * k < content.length →
          ∃ v, dec Config.sameSymbolOrder (slice content (11 * k) (11 * k + 11)) = .ok v)))

/-- R158: decode_bytes of the text encode_bytes wrote gives the bytes back, through the machine. -/
def Obligations.ByteRoundTrip : Prop :=
  ∀ (s s1 : State) (b : Bytes), s.bytesIn = some b → exec .encodeBytes s = .next s1 →
    ∃ t : Text, s1.textOut = some t ∧
      exec .decodeBytes { s1 with textIn := some t } = .next { s1 with
        textIn := some t, status := 0x00#8, valueOut := none, bytesOut := some b, textOut := none,
        work := none }

/-- R159: a successful DB gives 8 bytes for each window but the last, and the terminator's count. -/
def Obligations.DecodedByteLength : Prop :=
  ∀ (order : Config.SymbolOrder) (t : Text) (out : Bytes), decodeBlocks order t = .ok out →
    ∃ c lbs, t.getLast? = some c ∧ val c = some lbs ∧ lbs ≤ 8 ∧
      out.length = 8 * ((t.length - 1 + 10) / 11 - 1) + lbs ∧
      out.length ≤ 8 * ((t.length - 1 + 10) / 11)

/-- Non-canonical byte strings keep the meaning the rules give them (95_test_vectors.md D10, D12, D13). -/
def Obligations.NonCanonicalByteTextsDecode : Prop :=
  ∀ order : Config.SymbolOrder,
    decodeBlocks order [0x30#8, 0x30#8, 0x30#8, 0x38#8] = .ok [0#8, 0#8, 0#8, 0#8, 0#8, 0#8, 0#8, 0#8] ∧
    decodeBlocks order [0x34#8, 0x38#8, 0x30#8, 0x31#8] = .ok [0#8] ∧
    decodeBlocks order [0x41#8, 0x30#8] = .ok []

/-! ### 42_big_endian.md -/

/-- R182 with R180: be_read of at most 8 bytes completes with their big-endian value; more bytes raise
IllegalCommand; with no value in BYTES_IN it is refused. -/
def Obligations.BeReadGivesTheBigEndianValue : Prop :=
  ∀ s : State,
    (s.bytesIn = none → exec .beRead s = .refused (.operandNotWritten .bytesIn)) ∧
    (∀ b, s.bytesIn = some b →
      (b.length ≤ 8 →
        (beParse b).toNat = bytesValue b ∧ bytesValue b < 256 ^ b.length ∧
        exec .beRead s = .next { s with
          status := 0x00#8, valueOut := some (BitVec.ofNat 64 (bytesValue b)), bytesOut := none,
          textOut := none, work := none }) ∧
      (8 < b.length →
        exec .beRead s = .next { s with
          status := 0x05#8, valueOut := none, bytesOut := none, textOut := none, work := none }))

/-- R187 with R185: be_write completes with n bytes, byte i being v[8(n-1-i)+7 : 8(n-1-i)]; with no value in
VALUE_IN it is refused. The last clause, on a term with LEN 9 to 15, is the model's choice (log 13): R187 and
R82 speak of the command word, and no word decodes to such a term. -/
def Obligations.BeWriteRendersTheLowBytes : Prop :=
  ∀ (s : State) (len : BitVec 4),
    (∀ v : U64, len.toNat ≤ 8 → s.valueIn = some v →
      ∃ out : Bytes,
        exec (.beWrite len) s = .next { s with
          status := 0x00#8, valueOut := none, bytesOut := some out, textOut := none, work := none } ∧
        out.length = len.toNat ∧
        (∀ i, i < len.toNat → out[i]? = some (v.extractLsb' (8 * (len.toNat - 1 - i)) 8))) ∧
    (len.toNat ≤ 8 → s.valueIn = none → exec (.beWrite len) s = .refused (.operandNotWritten .valueIn)) ∧
    (8 < len.toNat →
      exec (.beWrite len) s = .next { s with
        status := 0x05#8, valueOut := none, bytesOut := none, textOut := none, work := none })

/-- R186: parse and render are inverse to each other, up to the bytes rendered. -/
def Obligations.ParseAndRenderAreInverse : Prop :=
  (∀ b : Bytes, b.length ≤ 8 → beRender (beParse b) b.length = b) ∧
  (∀ (v : U64) (n : Nat), n ≤ 8 → (beParse (beRender v n)).toNat = v.toNat % 2 ^ (8 * n)) ∧
  (∀ (v : U64) (n : Nat), n ≤ 8 → (beParse (beRender v n) = v ↔ v.toNat < 2 ^ (8 * n)))

/-- R181: b[0] is the most significant byte, leading zero bytes do not change the value, and BE_PARSE is
injective among sequences of one length. -/
def Obligations.ParseIsInjectiveAtOneLength : Prop :=
  (∀ (x : Byte) (b : Bytes), b.length < 8 →
    (beParse (x :: b)).toNat = x.toNat * 256 ^ b.length + (beParse b).toNat) ∧
  (∀ b : Bytes, b.length < 8 → beParse (0#8 :: b) = beParse b) ∧
  (∀ a b : Bytes, a.length = b.length → a.length ≤ 8 → beParse a = beParse b → a = b)

/-! ### Frames, outputs and errors -/

/-- R31: what a command that answers a next state leaves. It keeps CMD, every input register and the host's
side; only the outputs and STATUS change; on success its own output alone holds a value, on an error none
does; and reading an output without a value faults. -/
def Obligations.OutputsHoldOnlyTheLastResult : Prop :=
  (∀ (i : Instr) (s t : State), exec i s = .next t →
    t.cmd = s.cmd ∧ t.valueIn = s.valueIn ∧ t.bytesIn = s.bytesIn ∧ t.textIn = s.textIn ∧
    t.moves = s.moves ∧ t.readData = s.readData ∧ t.freeReads = s.freeReads ∧ t.work = none ∧
    t.status.extractLsb' 3 5 = 0#5 ∧
    (t.valueOut.isSome ↔ t.status = 0x00#8 ∧ (i = .decodeUint64 ∨ i = .beRead)) ∧
    (t.bytesOut.isSome ↔ t.status = 0x00#8 ∧ (i = .decodeBytes ∨ ∃ len, i = .beWrite len)) ∧
    (t.textOut.isSome ↔ t.status = 0x00#8 ∧ (i = .encodeUint64 ∨ i = .encodeBytes))) ∧
  (∀ s : State,
    (s.valueOut = none → hostRead .valueOut s = .fault (.outputHasNoValue .valueOut)) ∧
    (s.bytesOut = none → hostRead .bytesOut s = .fault (.outputHasNoValue .bytesOut)) ∧
    (s.textOut = none → hostRead .textOut s = .fault (.outputHasNoValue .textOut)))

/-- R207: an error gives STATUS its code and the three outputs no value; no other state changes. A command
without an error has status OK. -/
def Obligations.ErrorsLeaveNoPartialResult : Prop :=
  ∀ (i : Instr) (s t : State), exec i s = .next t →
    t.status = 0x00#8 ∨
    ∃ e : CommandError, t = { s with
      status := match e with
        | .emptyInput => 0x01#8
        | .invalidCharacter => 0x02#8
        | .overflow => 0x03#8
        | .malformedTerminator => 0x04#8
        | .illegalCommand => 0x05#8
      valueOut := none, bytesOut := none, textOut := none, work := none }

/-- R206: which command reports which code, and that each code of its row occurs. -/
def Obligations.ReportableCodesByCommand : Prop :=
  (∀ (i : Instr) (s t : State), i.wellFormed = true → exec i s = .next t →
    match i with
    | .encodeUint64 => t.status = 0x00#8
    | .decodeUint64 => t.status ∈ [0x00#8, 0x01#8, 0x02#8, 0x03#8]
    | .encodeBytes => t.status = 0x00#8
    | .decodeBytes => t.status ∈ [0x00#8, 0x01#8, 0x02#8, 0x03#8, 0x04#8]
    | .beRead => t.status ∈ [0x00#8, 0x05#8]
    | .beWrite _ => t.status = 0x00#8) ∧
  (∀ code ∈ [0x00#8, 0x01#8, 0x02#8, 0x03#8],
    ∃ s t, exec .decodeUint64 s = .next t ∧ t.status = code) ∧
  (∀ code ∈ [0x00#8, 0x01#8, 0x02#8, 0x03#8, 0x04#8],
    ∃ s t, exec .decodeBytes s = .next t ∧ t.status = code) ∧
  (∀ code ∈ [0x00#8, 0x05#8], ∃ s t, exec .beRead s = .next t ∧ t.status = code) ∧
  (∃ s t, exec .encodeUint64 s = .next t ∧ t.status = 0x00#8) ∧
  (∃ s t, exec .encodeBytes s = .next t ∧ t.status = 0x00#8) ∧
  (∃ s t, exec (.beWrite 8#4) s = .next t ∧ t.status = 0x00#8)

/-- R39: STATUS and the outputs a command leaves are a function of the command and of the one input it
reads, and inputs within the capacities give outputs within theirs. -/
def Obligations.ResultsDependOnlyOnTheOperand : Prop :=
  (∀ (i : Instr) (s s' t : State), sameOperand i s s' → exec i s = .next t →
    ∃ t', exec i s' = .next t' ∧ t'.status = t.status ∧ t'.valueOut = t.valueOut ∧
      t'.bytesOut = t.bytesOut ∧ t'.textOut = t.textOut) ∧
  (∀ (i : Instr) (s t : State) (out : Text), exec i s = .next t →
    (∀ b, s.bytesIn = some b → b.length ≤ Config.maxInBytes) → t.textOut = some out →
      out.length ≤ max 11 (11 * ((Config.maxInBytes + 7) / 8) + 1)) ∧
  (∀ (i : Instr) (s t : State) (out : Bytes), i.wellFormed = true → exec i s = .next t →
    (∀ u, s.textIn = some u → u.length ≤ Config.maxInChars) → t.bytesOut = some out →
      out.length ≤ 8 * ((Config.maxInChars - 1 + 10) / 11))

/-- Issuing a command again with the same inputs gives the same state (R60). -/
def Obligations.CommandsAreIdempotent : Prop :=
  ∀ (i : Instr) (s t : State), exec i s = .next t → exec i t = .next t

/-- R211: after any command, successful or not, the core accepts the next command word at once: it answers
a next state wherever the word's operand is written. -/
def Obligations.CoreAcceptsTheNextCommandAtOnce : Prop :=
  ∀ (i : Instr) (s t : State) (w : CmdWord), exec i s = .next t →
    (∀ j, decode w = .ok j → operandHeld j s = true) → ∃ u, writeCmd w t = .next u

/-! ### The invariant -/

/-- The invariant holds at reset. -/
def Obligations.InvariantHoldsAtReset : Prop := State.reset.Inv

/-- From every state that meets the invariant, a step gives a state that meets it: STATUS's reserved bits
stay 0 and its code is never 6 (R27, R200), the inputs fit (R25, R26), at most one output holds a value and
only after a success (R31), TEXT_OUT holds alphabet codes (R30), the outputs fit (R39), and a command in
progress is one its operand leads to (R38). -/
def Obligations.StepKeepsTheInvariant : Prop :=
  ∀ s t : State, s.Inv → step s = .next t → t.Inv

/-- The same for one step of the stepped reading, whose working state the invariant ties to its command's
operand (R33 to R38, R108, R118, R160). -/
def Obligations.MicroStepKeepsTheInvariant : Prop :=
  ∀ s t : State, s.Inv → microStep s = .next t → t.Inv

/-! ### The stepped reading -/

/-- Every command ends within a bound of steps, in the state the atomic command gives, with a result or an
error (R38). The bounds are those of R108, R118 and R160, in the order of R248's. The model's choice (log 15):
the start is a step of its own, and be_read and be_write, to which R248 gives no bound, end in it (bound 0). -/
def Obligations.SteppedRunEndsAsTheAtomicCommand : Prop :=
  ∀ (s : State) (i : Instr), operandHeld i s = true →
    ∃ s0 t, startCommand i s = .next s0 ∧ microFinish (stepBound i s) s0 = .next t ∧
      t.work = none ∧ exec i s = .next t

/-- R108: a stepped encode_uint64 takes one step for the zero test and, for a nonzero value, 11 place
steps, each the loop body on the working state; it completes after the k = 0 step with ENC's result. -/
def Obligations.SteppedEncodeTakesElevenPlaces : Prop :=
  ∀ (s : State) (v : U64), s.valueIn = some v →
    (v = 0#64 → advance .encodeZeroTest s = exec .encodeUint64 s) ∧
    (v ≠ 0#64 →
      (∀ j, j ≤ 10 → microFinish (j + 1) { s with work := some .encodeZeroTest } =
        .next { s with work := some (.encodePlaces (runPlaces j (encodeStart v))) }) ∧
      microFinish 12 { s with work := some .encodeZeroTest } = exec .encodeUint64 s)

/-- R118: a stepped decode_uint64 takes one step for the empty test and then one a symbol, each the loop body
on the working state; it completes after the last symbol or at the first error, with DEC's result. -/
def Obligations.SteppedDecodeTakesOneStepASymbol : Prop :=
  ∀ (s : State) (t : Text), s.textIn = some t →
    (t = [] → advance .decodeEmptyTest s = exec .decodeUint64 s) ∧
    (∀ (i : Nat) (acc : U64) (c : CharCode), t[i]? = some c →
      decodeFrom Config.sameSymbolOrder 0#64 (t.take i) = .ok acc →
        microFinish (i + 1) { s with work := some .decodeEmptyTest } =
          .next { s with work := some (.decodeSymbols { acc := acc, i := i }) } ∧
        ((i + 1 = t.length ∨ ∃ e, decodeSymbol Config.sameSymbolOrder acc c = .error e) →
          microFinish (i + 2) { s with work := some .decodeEmptyTest } = exec .decodeUint64 s))

/-- R160: a stepped encode_bytes takes one step a window, and one for no bytes; a stepped decode_bytes takes
one step for the length check, one for the terminator and then one a window. Each window step is the loop
body on the working state, and the result is the command's. -/
def Obligations.SteppedFramersTakeOneStepAWindow : Prop :=
  (∀ (s : State) (b : Bytes), s.bytesIn = some b →
    (∀ j, j < (b.length + 7) / 8 →
      microFinish j { s with work := some (.fragment (fragmentStart b)) } =
        .next { s with work := some (.fragment (fragmentLoop b j (fragmentStart b))) }) ∧
    (b ≠ [] → microFinish ((b.length + 7) / 8) { s with work := some (.fragment (fragmentStart b)) } =
      exec .encodeBytes s) ∧
    (b = [] → microFinish 1 { s with work := some (.fragment (fragmentStart b)) } = exec .encodeBytes s)) ∧
  (∀ (s : State) (t : Text), s.textIn = some t →
    (t.length < 2 → microFinish 1 { s with work := some .deframeLength } = exec .decodeBytes s) ∧
    (2 ≤ t.length →
      microFinish 1 { s with work := some .deframeLength } =
        .next { s with work := some .deframeTerminator } ∧
      (∀ e, terminatorValue t = .error e →
        microFinish 2 { s with work := some .deframeLength } = exec .decodeBytes s) ∧
      (∀ lbs, terminatorValue t = .ok lbs →
        (∀ j d, j < (t.length - 1 + 10) / 11 →
          deframeLoop Config.sameSymbolOrder t j (deframeStart t lbs) = .ok d →
            microFinish (2 + j) { s with work := some .deframeLength } =
              .next { s with work := some (.deframeWindows d) }) ∧
        microFinish (2 + (t.length - 1 + 10) / 11) { s with work := some .deframeLength } =
          exec .decodeBytes s)))

/-- A step of the atomic model at a core with a command in progress ends as that command on its operand
does, before any host move but reset lands (R38, R245). That one step finishes a held working state is the
model's choice (log 1): R38 allows any schedule, and the atomic model leaves no such state behind; that the
result is the command's is R38's. -/
def Obligations.CommandInProgressEndsAsItsCommand : Prop :=
  ∀ (s : State) (w : Work), s.Inv → s.work = some w → (∀ rest, s.moves ≠ .reset :: rest) →
    step s = exec (workCommand w) s

/-- R245: while a command is in progress no host move lands but reset: the pending moves, the inputs, CMD
and the last read stay as they are, and which moves are pending does not matter. -/
def Obligations.NoHostMoveLandsDuringACommand : Prop :=
  ∀ (s t : State) (w : Work), s.work = some w → (∀ rest, s.moves ≠ .reset :: rest) →
    microStep s = .next t →
      t.moves = s.moves ∧ t.cmd = s.cmd ∧ t.valueIn = s.valueIn ∧ t.bytesIn = s.bytesIn ∧
      t.textIn = s.textIn ∧ t.readData = s.readData ∧ t.freeReads = s.freeReads ∧
      (∀ moves : List HostMove, (∀ rest, moves ≠ .reset :: rest) →
        microStep { s with moves := moves } = .next { t with moves := moves })

/-! ### Instances, pseudo-instructions -/

/-- R62: any interleaving of the instances' steps gives each instance what it would have alone, in as many
steps as the schedule gives it, whatever the others meet: a refusal or a fault of one stops no other. Alone,
an instance without a refusal has the outcome of the core's own run. -/
def Obligations.InterleavingGivesEachInstanceItsOwnResult : Prop :=
  ∀ (schedule : List Nat) (p : Platform),
    (platformRun schedule p).length = p.length ∧
    ∀ (j : Nat) (x : Instance), p[j]? = some x →
      (platformRun schedule p)[j]? = some (instanceRun (schedule.count j) x) ∧
      (x.fault = none →
        (∀ t, core.run (schedule.count j) x.state = .next t →
          (platformRun schedule p)[j]? = some { x with state := t }) ∧
        (∀ f, core.run (schedule.count j) x.state = .fault f →
          ∃ y, (platformRun schedule p)[j]? = some y ∧ y.fault = some f ∧ y.refusals = x.refusals))

/-- A refused host move leaves the state of its instance as it was (93_implementation_defined.md, `refuse`),
but that the move is no longer pending, and the instance goes on with its other moves; a faulted instance
keeps its state. That a platform's instance goes on so is the model's choice (log 18). -/
def Obligations.RefusedMoveLeavesItsInstanceGoingOn : Prop :=
  ∀ x : Instance, x.fault = none →
    (∀ r, x.state.work = none → step x.state = .refused r →
      instanceStep x = { x with
        state := { x.state with moves := x.state.moves.tail }, refusals := x.refusals ++ [r] }) ∧
    (∀ f, step x.state = .fault f → ∀ n, instanceRun (n + 1) x = { x with fault := some f })

/-- R87: each pseudo-instruction is the host's write of its operand and then its command. What CMD holds
afterwards is left open here (log 9). -/
def Obligations.PseudoInstructionsWriteThenCommand : Prop :=
  ∀ s : State, s.work = none → s.moves = [] →
    (∀ v, ∃ c, core.run 2 (loadStatements (expandPseudo (.encodeUint64 v)) s) =
      exec .encodeUint64 { s with valueIn := some v, cmd := c }) ∧
    (∀ t : Text, t.length ≤ Config.maxInChars →
      ∃ c, core.run 2 (loadStatements (expandPseudo (.decodeUint64 t)) s) =
        exec .decodeUint64 { s with textIn := some t, cmd := c }) ∧
    (∀ b : Bytes, b.length ≤ Config.maxInBytes →
      ∃ c, core.run 2 (loadStatements (expandPseudo (.encodeBytes b)) s) =
        exec .encodeBytes { s with bytesIn := some b, cmd := c }) ∧
    (∀ t : Text, t.length ≤ Config.maxInChars →
      ∃ c, core.run 2 (loadStatements (expandPseudo (.decodeBytes t)) s) =
        exec .decodeBytes { s with textIn := some t, cmd := c }) ∧
    (∀ b : Bytes, b.length ≤ Config.maxInBytes →
      ∃ c, core.run 2 (loadStatements (expandPseudo (.beRead b)) s) =
        exec .beRead { s with bytesIn := some b, cmd := c }) ∧
    (∀ (v : U64) (n : Nat), n ≤ 8 →
      ∃ c, core.run 2 (loadStatements (expandPseudo (.beWrite v (BitVec.ofNat 4 n))) s) =
        exec (.beWrite (BitVec.ofNat 4 n)) { s with
          valueIn := some v, cmd := c })
end

