-- ==== Sys2Proof/Laws/Sequences.lean ====
section
/-! SUPPORT. The small laws of the claims' vocabulary: the value of a text and of a byte sequence, alphabet
texts, slices, and the render of one byte more. -/

namespace Sys2Proof.Machine

/-! ### Texts -/

theorem digitAt_cons_zero (c : CharCode) (t : Text) : digitAt (c :: t) 0 = (val c).getD 0 := by
  simp [digitAt]

theorem digitAt_cons_succ (c : CharCode) (t : Text) (i : Nat) : digitAt (c :: t) (i + 1) = digitAt t i := by
  simp [digitAt]

theorem textValue_nil : textValue [] = 0 := rfl

/-- The first symbol stands at the highest place. -/
theorem textValue_cons (c : CharCode) (t : Text) :
    textValue (c :: t) = (val c).getD 0 * 62 ^ t.length + textValue t := by
  unfold textValue
  rw [List.length_cons, List.range_succ_eq_map, List.map_cons, List.sum_cons, List.map_map,
    digitAt_cons_zero]
  congr 1
  apply congrArg
  apply List.map_congr_left
  intro i _
  simp only [Function.comp, Nat.succ_eq_add_one, digitAt_cons_succ]
  congr 2
  omega

theorem textValue_append (a b : Text) :
    textValue (a ++ b) = textValue a * 62 ^ b.length + textValue b := by
  induction a with
  | nil => simp [textValue_nil]
  | cons c a ih =>
    rw [List.cons_append, textValue_cons, textValue_cons, ih, List.length_append, pow_add]; ring

theorem inAlphabet_append (a b : Text) : inAlphabet (a ++ b) = (inAlphabet a && inAlphabet b) := by
  simp [inAlphabet]

/-- The symbol '0' on the left does not change a text's value. -/
theorem textValue_zeros (n : Nat) (t : Text) :
    textValue (List.replicate n (sym 0) ++ t) = textValue t := by
  induction n with
  | zero => simp
  | succ n ih =>
    rw [List.replicate_succ, List.cons_append, textValue_cons, ih, show val (sym 0) = some 0 by decide]
    simp

theorem inAlphabet_zeros (n : Nat) : inAlphabet (List.replicate n (sym 0)) = true := by
  simp only [inAlphabet, List.all_replicate]
  split
  · rfl
  · decide

/-! ### Byte sequences -/

theorem bytesValue_nil : bytesValue [] = 0 := rfl

/-- The first byte stands at the highest place. -/
theorem bytesValue_cons (x : Byte) (b : Bytes) :
    bytesValue (x :: b) = x.toNat * 256 ^ b.length + bytesValue b := by
  unfold bytesValue
  rw [List.length_cons, List.range_succ_eq_map, List.map_cons, List.sum_cons, List.map_map]
  congr 1
  apply congrArg
  apply List.map_congr_left
  intro i _
  simp only [Function.comp, Nat.succ_eq_add_one, List.getD_cons_succ]
  congr 2
  omega

theorem bytesValue_append (a b : Bytes) :
    bytesValue (a ++ b) = bytesValue a * 256 ^ b.length + bytesValue b := by
  induction a with
  | nil => simp [bytesValue_nil]
  | cons c a ih =>
    rw [List.cons_append, bytesValue_cons, bytesValue_cons, ih, List.length_append, pow_add]; ring

theorem bytesValue_lt (b : Bytes) : bytesValue b < 256 ^ b.length := by
  induction b with
  | nil => simp [bytesValue_nil]
  | cons x b ih =>
    rw [bytesValue_cons, List.length_cons, pow_succ]
    have := x.isLt
    have : x.toNat * 256 ^ b.length ≤ 255 * 256 ^ b.length := Nat.mul_le_mul_right _ (by omega)
    omega

theorem beParse_append_one (b : Bytes) (x : Byte) :
    beParse (b ++ [x]) = (beParse b <<< 8) ||| x.setWidth 64 := by
  simp [beParse]

theorem beRender_length (v : U64) (n : Nat) : (beRender v n).length = n := by
  simp [beRender]

/-- The mask of R185 keeps a byte's own bits. -/
theorem lowByte_eq (v : U64) : (v &&& 0xFF#64).setWidth 8 = v.setWidth 8 := by
  apply BitVec.eq_of_toNat_eq
  rw [BitVec.toNat_setWidth, BitVec.toNat_setWidth, BitVec.toNat_and,
    show (0xFF#64).toNat = 2 ^ 8 - 1 from rfl, Nat.and_two_pow_sub_one_eq_mod, Nat.mod_mod]

/-- One byte more is the low byte at the end. -/
theorem beRender_succ (v : U64) (n : Nat) :
    beRender v (n + 1) = beRender (v >>> 8) n ++ [v.setWidth 8] := by
  unfold beRender
  rw [List.range_succ, List.map_append]
  congr 1
  · apply List.map_congr_left
    intro i hi
    simp at hi
    rw [← BitVec.shiftRight_add]
    congr 3
    omega
  · simp only [List.map_cons, List.map_nil, lowByte_eq]; simp

/-! ### Slices and windows -/

theorem slice_mid {α : Type} (a b c : List α) : slice (a ++ b ++ c) a.length (a.length + b.length) = b := by
  simp [slice]

/-- Blocks of one length. -/
theorem flatten_length_of_blocks {α : Type} {n : Nat} (blocks : List (List α))
    (h : ∀ x ∈ blocks, x.length = n) : blocks.flatten.length = blocks.length * n := by
  induction blocks with
  | nil => simp
  | cons x blocks ih =>
    rw [List.flatten_cons, List.length_append, h x (by simp), ih (fun y hy => h y (by simp [hy])),
      List.length_cons]
    ring

/-- A sequence that is not empty is blocks of n and a final block of 1 to n. -/
theorem exists_blocks {α : Type} (n : Nat) (hn : 0 < n) (b : List α) (hb : b ≠ []) :
    ∃ (blocks : List (List α)) (final : List α),
      (∀ x ∈ blocks, x.length = n) ∧ 1 ≤ final.length ∧ final.length ≤ n ∧ b = blocks.flatten ++ final := by
  induction hl : b.length using Nat.strong_induction_on generalizing b with
  | _ l ih =>
    have hpos : 0 < b.length := List.length_pos_iff.mpr hb
    by_cases h : b.length ≤ n
    · exact ⟨[], b, by simp, hpos, h, by simp⟩
    · obtain ⟨blocks, final, h1, h2, h3, h4⟩ := ih (b.drop n).length (by simp; omega) (b.drop n) (by
        intro hc; have := congrArg List.length hc; simp at this; omega) rfl
      refine ⟨b.take n :: blocks, final, ?_, h2, h3, ?_⟩
      · intro x hx
        rcases List.mem_cons.mp hx with rfl | hx
        · simp; omega
        · exact h1 x hx
      · rw [List.flatten_cons, List.append_assoc, ← h4, List.take_append_drop]

theorem pad11_length {t : Text} (h : t.length ≤ 11) : (pad11 t).length = 11 := by
  simp [pad11, Config.padWidth]; omega

theorem le_blockCount (n : Nat) : n ≤ 8 * blockCount n := by
  simp only [blockCount, Config.blockBytes]; omega

theorem le_windowCount (n : Nat) : n ≤ 11 * windowCount n := by
  simp only [windowCount, Config.padWidth]; omega

end Sys2Proof.Machine
end

