-- ==== Sys2Proof/Laws/Loops.lean ====
section
/-! SUPPORT. The loops of the codecs: how they split, when they are done, and where they stand. -/

namespace Sys2Proof.Machine

/-! ### The integer encoder's places -/

theorem placeStep_k (w : IntEncoderWork) : (placeStep w).k = w.k - 1 := rfl

theorem runPlaces_add (m n : Nat) (w : IntEncoderWork) :
    runPlaces (m + n) w = runPlaces n (runPlaces m w) := by
  induction m generalizing w with
  | zero => simp [runPlaces]
  | succ m ih => rw [Nat.succ_add]; exact ih _

theorem runPlaces_succ (n : Nat) (w : IntEncoderWork) : runPlaces (n + 1) w = placeStep (runPlaces n w) := by
  rw [runPlaces_add]; rfl

/-! ### The integer decoder's symbols -/

theorem decodeFrom_append (order : Config.SymbolOrder) (acc : U64) (p r : Text) :
    decodeFrom order acc (p ++ r) =
      match decodeFrom order acc p with
      | .error e => .error e
      | .ok a => decodeFrom order a r := by
  induction p generalizing acc with
  | nil => rfl
  | cons c p ih =>
    simp only [List.cons_append, decodeFrom]
    cases decodeSymbol order acc c with
    | error e => rfl
    | ok a => exact ih a

/-! ### The fragmenter's windows -/

theorem fragmentLoop_add (b : Bytes) (m n : Nat) (w : FragmenterWork) :
    fragmentLoop b (m + n) w = fragmentLoop b n (fragmentLoop b m w) := by
  induction m generalizing w with
  | zero => simp [fragmentLoop]
  | succ m ih =>
    rw [Nat.succ_add, fragmentLoop, fragmentLoop]
    split
    · exact ih _
    · rename_i h
      cases n with
      | zero => rfl
      | succ n => rw [fragmentLoop, if_neg h]

theorem fragmentLoop_of_done (b : Bytes) (n : Nat) (w : FragmenterWork) (h : b.length ≤ w.off) :
    fragmentLoop b n w = w := by
  cases n with
  | zero => rfl
  | succ n => rw [fragmentLoop, if_neg (by omega)]

/-- While windows are left, n windows advance the offset by 8 n. -/
theorem fragmentLoop_off (b : Bytes) (n : Nat) (w : FragmenterWork)
    (h : (fragmentLoop b n w).off < b.length) : (fragmentLoop b n w).off = w.off + 8 * n := by
  induction n generalizing w with
  | zero => rfl
  | succ n ih =>
    rw [fragmentLoop] at h ⊢
    split
    · rename_i hlt
      rw [if_pos hlt] at h
      rw [ih _ h]
      show w.off + 8 + 8 * n = _
      omega
    · rename_i hlt
      rw [if_neg hlt] at h
      omega

/-- Fuel past the last window changes nothing. -/
theorem fragmentLoop_of_le (b : Bytes) (m n : Nat) (w : FragmenterWork) (h : b.length ≤ w.off + 8 * m)
    (hmn : m ≤ n) : fragmentLoop b n w = fragmentLoop b m w := by
  obtain ⟨k, rfl⟩ := Nat.exists_eq_add_of_le hmn
  rw [fragmentLoop_add, fragmentLoop_of_done]
  by_contra hc
  have := fragmentLoop_off b m w (by omega)
  omega

/-! ### The deframer's windows -/

theorem deframeStep_ok {order : Config.SymbolOrder} {t : Text} {w w' : DeframerWork}
    (h : deframeStep order t w = .ok w') :
    w'.lbs = w.lbs ∧ w'.cl = w.cl ∧ w'.off = w.off + 11 ∧
      w'.out.length = w.out.length + if w.cl - w.off ≤ 11 then w.lbs else 8 := by
  unfold deframeStep deframeWindow at h
  split at h <;> rename_i hle <;> split at h
  · cases h
  · cases h; exact ⟨rfl, rfl, rfl, by rw [if_pos hle]; simp [beRender_length]⟩
  · cases h
  · cases h; exact ⟨rfl, rfl, rfl, by rw [if_neg hle]; simp [beRender_length, Config.blockBytes]⟩

theorem deframeLoop_add (order : Config.SymbolOrder) (t : Text) (m n : Nat) (w : DeframerWork) :
    deframeLoop order t (m + n) w =
      match deframeLoop order t m w with
      | .error e => .error e
      | .ok w' => deframeLoop order t n w' := by
  induction m generalizing w with
  | zero => simp [deframeLoop]
  | succ m ih =>
    rw [Nat.succ_add, deframeLoop, deframeLoop]
    split
    · cases deframeStep order t w with
      | error e => rfl
      | ok w1 => exact ih w1
    · rename_i h
      cases n with
      | zero => rfl
      | succ n => simp only; rw [deframeLoop, if_neg h]

theorem deframeLoop_of_done (order : Config.SymbolOrder) (t : Text) (n : Nat) (w : DeframerWork)
    (h : w.cl ≤ w.off) : deframeLoop order t n w = .ok w := by
  cases n with
  | zero => rfl
  | succ n => rw [deframeLoop, if_neg (by omega)]

/-- While windows are left, n windows advance the offset by 11 n; LBS and CL stay. -/
theorem deframeLoop_ok {order : Config.SymbolOrder} {t : Text} (n : Nat) {w w' : DeframerWork}
    (h : deframeLoop order t n w = .ok w') :
    w'.cl = w.cl ∧ w'.lbs = w.lbs ∧ (w'.off < w.cl → w'.off = w.off + 11 * n) := by
  induction n generalizing w with
  | zero => cases h; exact ⟨rfl, rfl, fun _ => rfl⟩
  | succ n ih =>
    rw [deframeLoop] at h
    split at h
    · split at h
      · cases h
      · rename_i w1 hs
        obtain ⟨hl, hc, ho, _⟩ := deframeStep_ok hs
        obtain ⟨h1, h2, h3⟩ := ih h
        exact ⟨by rw [h1, hc], by rw [h2, hl], fun hlt => by rw [h3 (by omega), ho]; omega⟩
    · cases h; exact ⟨rfl, rfl, fun hlt => by omega⟩

/-- Fuel past the last window changes nothing. -/
theorem deframeLoop_of_le (order : Config.SymbolOrder) (t : Text) (m n : Nat) (w : DeframerWork)
    (h : w.cl ≤ w.off + 11 * m) (hmn : m ≤ n) : deframeLoop order t n w = deframeLoop order t m w := by
  obtain ⟨k, rfl⟩ := Nat.exists_eq_add_of_le hmn
  rw [deframeLoop_add]
  cases hm : deframeLoop order t m w with
  | error e => rfl
  | ok w' =>
    obtain ⟨h1, _, h3⟩ := deframeLoop_ok m hm
    simp only
    rw [deframeLoop_of_done]
    by_contra hc
    have := h3 (by omega)
    omega

end Sys2Proof.Machine
end

