-- ==== Sys2Proof/Laws/State.lean ====
section
/-! SUPPORT. One equation per field for each update of the state, so that no proof unfolds an update. -/

namespace Sys2Proof.Machine

/-! The end of a command. -/

@[simp] theorem endCommand_cmd (c : BitVec 3) (v : Option U64) (b : Option Bytes) (t : Option Text) (s : State) :
    (endCommand c v b t s).cmd = s.cmd := rfl

@[simp] theorem endCommand_valueIn (c : BitVec 3) (v : Option U64) (b : Option Bytes) (t : Option Text) (s : State) :
    (endCommand c v b t s).valueIn = s.valueIn := rfl

@[simp] theorem endCommand_bytesIn (c : BitVec 3) (v : Option U64) (b : Option Bytes) (t : Option Text) (s : State) :
    (endCommand c v b t s).bytesIn = s.bytesIn := rfl

@[simp] theorem endCommand_textIn (c : BitVec 3) (v : Option U64) (b : Option Bytes) (t : Option Text) (s : State) :
    (endCommand c v b t s).textIn = s.textIn := rfl

@[simp] theorem endCommand_status (c : BitVec 3) (v : Option U64) (b : Option Bytes) (t : Option Text) (s : State) :
    (endCommand c v b t s).status = statusWith c := rfl

@[simp] theorem endCommand_valueOut (c : BitVec 3) (v : Option U64) (b : Option Bytes) (t : Option Text) (s : State) :
    (endCommand c v b t s).valueOut = v := rfl

@[simp] theorem endCommand_bytesOut (c : BitVec 3) (v : Option U64) (b : Option Bytes) (t : Option Text) (s : State) :
    (endCommand c v b t s).bytesOut = b := rfl

@[simp] theorem endCommand_textOut (c : BitVec 3) (v : Option U64) (b : Option Bytes) (t : Option Text) (s : State) :
    (endCommand c v b t s).textOut = t := rfl

@[simp] theorem endCommand_work (c : BitVec 3) (v : Option U64) (b : Option Bytes) (t : Option Text) (s : State) :
    (endCommand c v b t s).work = none := rfl

@[simp] theorem endCommand_moves (c : BitVec 3) (v : Option U64) (b : Option Bytes) (t : Option Text) (s : State) :
    (endCommand c v b t s).moves = s.moves := rfl

@[simp] theorem endCommand_readData (c : BitVec 3) (v : Option U64) (b : Option Bytes) (t : Option Text) (s : State) :
    (endCommand c v b t s).readData = s.readData := rfl

@[simp] theorem endCommand_freeReads (c : BitVec 3) (v : Option U64) (b : Option Bytes) (t : Option Text) (s : State) :
    (endCommand c v b t s).freeReads = s.freeReads := rfl

/-! The reset. -/

@[simp] theorem resetCore_cmd (s : State) : (resetCore s).cmd = none := rfl

@[simp] theorem resetCore_valueIn (s : State) : (resetCore s).valueIn = none := rfl

@[simp] theorem resetCore_bytesIn (s : State) : (resetCore s).bytesIn = none := rfl

@[simp] theorem resetCore_textIn (s : State) : (resetCore s).textIn = none := rfl

@[simp] theorem resetCore_status (s : State) : (resetCore s).status = 0x07#8 := rfl

@[simp] theorem resetCore_valueOut (s : State) : (resetCore s).valueOut = none := rfl

@[simp] theorem resetCore_bytesOut (s : State) : (resetCore s).bytesOut = none := rfl

@[simp] theorem resetCore_textOut (s : State) : (resetCore s).textOut = none := rfl

@[simp] theorem resetCore_work (s : State) : (resetCore s).work = none := rfl

@[simp] theorem resetCore_moves (s : State) : (resetCore s).moves = s.moves := rfl

@[simp] theorem resetCore_readData (s : State) : (resetCore s).readData = s.readData := rfl

@[simp] theorem resetCore_freeReads (s : State) : (resetCore s).freeReads = s.freeReads := rfl

/-! The operands `State.withFetchWord` supplies: a command's own input register, and nothing else. -/

@[simp] theorem supplyOperands_cmd (i : Instr) (s : State) : (supplyOperands i s).cmd = s.cmd := by
  cases i <;> rfl

@[simp] theorem supplyOperands_status (i : Instr) (s : State) : (supplyOperands i s).status = s.status := by
  cases i <;> rfl

@[simp] theorem supplyOperands_valueOut (i : Instr) (s : State) : (supplyOperands i s).valueOut = s.valueOut := by
  cases i <;> rfl

@[simp] theorem supplyOperands_bytesOut (i : Instr) (s : State) : (supplyOperands i s).bytesOut = s.bytesOut := by
  cases i <;> rfl

@[simp] theorem supplyOperands_textOut (i : Instr) (s : State) : (supplyOperands i s).textOut = s.textOut := by
  cases i <;> rfl

@[simp] theorem supplyOperands_work (i : Instr) (s : State) : (supplyOperands i s).work = s.work := by
  cases i <;> rfl

@[simp] theorem supplyOperands_moves (i : Instr) (s : State) : (supplyOperands i s).moves = s.moves := by
  cases i <;> rfl

@[simp] theorem supplyOperands_readData (i : Instr) (s : State) : (supplyOperands i s).readData = s.readData := by
  cases i <;> rfl

@[simp] theorem supplyOperands_freeReads (i : Instr) (s : State) : (supplyOperands i s).freeReads = s.freeReads := by
  cases i <;> rfl

/-! A command's working state put into the core, and the data of a read. -/

theorem keepWork_eq (w : Work) (s : State) : keepWork w s = .next { s with work := some w } := rfl

theorem returnRead_eq (d : ReadData) (s : State) : returnRead d s = .next { s with readData := some d } := rfl

theorem returnFree_eq (d : ReadData) (s : State) :
    returnFree d s = .next { s with freeReads := s.freeReads + 1, readData := some d } := rfl

/-! The fields of STATUS. -/

@[simp] theorem statusCode_statusWith (c : BitVec 3) : statusCode (statusWith c) = c := by
  revert c; decide

@[simp] theorem statusReserved_statusWith (c : BitVec 3) : statusReserved (statusWith c) = 0#5 := by
  revert c; decide

/-- No error has the code of success. -/
theorem errorCode_ne_ok (e : CommandError) : errorCode e ≠ codeOk := by
  cases e <;> decide

end Sys2Proof.Machine
end

