-- ==== Sys2Proof/Laws/Operations.lean ====
section
/-! SUPPORT. What each shared operation can do, said once: reading an operand, ending a command, a command's
next states, the cases of a step, and a run of steps. -/

namespace Sys2Proof.Machine

/-! ### Reading an operand -/

theorem withValueIn_of_eq {s : State} {v : U64} (h : s.valueIn = some v) (run : U64 → Outcome) :
    withValueIn s run = run v := by
  simp [withValueIn, h]

theorem withBytesIn_of_eq {s : State} {b : Bytes} (h : s.bytesIn = some b) (run : Bytes → Outcome) :
    withBytesIn s run = run b := by
  simp [withBytesIn, h]

theorem withTextIn_of_eq {s : State} {t : Text} (h : s.textIn = some t) (run : Text → Outcome) :
    withTextIn s run = run t := by
  simp [withTextIn, h]

/-- A read of VALUE_IN that leads to a next state read a value. -/
theorem withValueIn_next {s t : State} {run : U64 → Outcome} (h : withValueIn s run = .next t) :
    ∃ v, s.valueIn = some v ∧ run v = .next t := by
  cases hv : s.valueIn with
  | none => simp [withValueIn, hv] at h
  | some v => exact ⟨v, rfl, by simpa [withValueIn, hv] using h⟩

/-- A read of BYTES_IN that leads to a next state read a value. -/
theorem withBytesIn_next {s t : State} {run : Bytes → Outcome} (h : withBytesIn s run = .next t) :
    ∃ b, s.bytesIn = some b ∧ run b = .next t := by
  cases hb : s.bytesIn with
  | none => simp [withBytesIn, hb] at h
  | some b => exact ⟨b, rfl, by simpa [withBytesIn, hb] using h⟩

/-- A read of TEXT_IN that leads to a next state read a value. -/
theorem withTextIn_next {s t : State} {run : Text → Outcome} (h : withTextIn s run = .next t) :
    ∃ u, s.textIn = some u ∧ run u = .next t := by
  cases hu : s.textIn with
  | none => simp [withTextIn, hu] at h
  | some u => exact ⟨u, rfl, by simpa [withTextIn, hu] using h⟩

/-! ### The commands on a held operand -/

theorem exec_encodeUint64 {s : State} {v : U64} (h : s.valueIn = some v) :
    exec .encodeUint64 s = succeedText (enc v) s :=
  withValueIn_of_eq h _

theorem exec_decodeUint64 {s : State} {t : Text} (h : s.textIn = some t) :
    exec .decodeUint64 s = finishValue (dec Config.sameSymbolOrder t) s :=
  withTextIn_of_eq h _

theorem exec_encodeBytes {s : State} {b : Bytes} (h : s.bytesIn = some b) :
    exec .encodeBytes s = succeedText (encodeBlocks b) s :=
  withBytesIn_of_eq h _

theorem exec_decodeBytes {s : State} {t : Text} (h : s.textIn = some t) :
    exec .decodeBytes s = finishBytes (decodeBlocks Config.sameSymbolOrder t) s :=
  withTextIn_of_eq h _

theorem exec_beRead {s : State} {b : Bytes} (h : s.bytesIn = some b) :
    exec .beRead s = if 8 < b.length then abort .illegalCommand s else succeedValue (beParse b) s :=
  withBytesIn_of_eq h _

theorem exec_beWrite {s : State} {v : U64} (h : s.valueIn = some v) {len : BitVec 4} (hl : len.toNat ≤ 8) :
    exec (.beWrite len) s = succeedBytes (beRender v len.toNat) s := by
  rw [exec, execBeWrite, if_neg (show ¬ 8 < len.toNat by omega), withValueIn_of_eq h]

theorem exec_beWrite_illegal {s : State} {len : BitVec 4} (hl : 8 < len.toNat) :
    exec (.beWrite len) s = abort .illegalCommand s :=
  if_pos hl

/-! ### Ending a command -/

theorem abort_eq (e : CommandError) (s : State) :
    abort e s = .next (endCommand (errorCode e) none none none s) := rfl

/-- A command that gives a u64 or an error ends in one of two ways. -/
theorem finishValue_next {r : Except CommandError U64} {s t : State} (h : finishValue r s = .next t) :
    (∃ e, r = .error e ∧ t = endCommand (errorCode e) none none none s) ∨
    (∃ v, r = .ok v ∧ t = endCommand codeOk (some v) none none s) := by
  cases r with
  | error e => cases h; exact .inl ⟨e, rfl, rfl⟩
  | ok v => cases h; exact .inr ⟨v, rfl, rfl⟩

/-- A command that gives bytes or an error ends in one of two ways. -/
theorem finishBytes_next {r : Except CommandError Bytes} {s t : State} (h : finishBytes r s = .next t) :
    (∃ e, r = .error e ∧ t = endCommand (errorCode e) none none none s) ∨
    (∃ b, r = .ok b ∧ t = endCommand codeOk none (some b) none s) := by
  cases r with
  | error e => cases h; exact .inl ⟨e, rfl, rfl⟩
  | ok b => cases h; exact .inr ⟨b, rfl, rfl⟩

/-- Every next state of a command: it read its operand and ended with its own output or with an error. -/
theorem exec_cases {i : Instr} {s t : State} (h : exec i s = .next t) :
    match i with
    | .encodeUint64 =>
      ∃ v, s.valueIn = some v ∧ t = endCommand codeOk none none (some (enc v)) s
    | .decodeUint64 =>
      ∃ u, s.textIn = some u ∧
        ((∃ e, dec Config.sameSymbolOrder u = .error e ∧ t = endCommand (errorCode e) none none none s) ∨
          ∃ v, dec Config.sameSymbolOrder u = .ok v ∧ t = endCommand codeOk (some v) none none s)
    | .encodeBytes =>
      ∃ b, s.bytesIn = some b ∧ t = endCommand codeOk none none (some (encodeBlocks b)) s
    | .decodeBytes =>
      ∃ u, s.textIn = some u ∧
        ((∃ e, decodeBlocks Config.sameSymbolOrder u = .error e ∧
            t = endCommand (errorCode e) none none none s) ∨
          ∃ b, decodeBlocks Config.sameSymbolOrder u = .ok b ∧ t = endCommand codeOk none (some b) none s)
    | .beRead =>
      ∃ b, s.bytesIn = some b ∧
        ((8 < b.length ∧ t = endCommand (errorCode .illegalCommand) none none none s) ∨
          (b.length ≤ 8 ∧ t = endCommand codeOk (some (beParse b)) none none s))
    | .beWrite len =>
      (8 < len.toNat ∧ t = endCommand (errorCode .illegalCommand) none none none s) ∨
        (len.toNat ≤ 8 ∧ ∃ v, s.valueIn = some v ∧
          t = endCommand codeOk none (some (beRender v len.toNat)) none s) := by
  cases i with
  | encodeUint64 =>
    obtain ⟨v, hv, h⟩ := withValueIn_next h
    cases h; exact ⟨v, hv, rfl⟩
  | decodeUint64 =>
    obtain ⟨u, hu, h⟩ := withTextIn_next h
    exact ⟨u, hu, finishValue_next h⟩
  | encodeBytes =>
    obtain ⟨b, hb, h⟩ := withBytesIn_next h
    cases h; exact ⟨b, hb, rfl⟩
  | decodeBytes =>
    obtain ⟨u, hu, h⟩ := withTextIn_next h
    exact ⟨u, hu, finishBytes_next h⟩
  | beRead =>
    obtain ⟨b, hb, h⟩ := withBytesIn_next h
    by_cases hl : 8 < b.length
    · rw [if_pos hl] at h; cases h; exact ⟨b, hb, .inl ⟨hl, rfl⟩⟩
    · rw [if_neg hl] at h; cases h; exact ⟨b, hb, .inr ⟨by omega, rfl⟩⟩
  | beWrite len =>
    by_cases hl : 8 < len.toNat
    · rw [exec_beWrite_illegal hl] at h; cases h; exact .inl ⟨hl, rfl⟩
    · rw [exec, execBeWrite, if_neg hl] at h
      obtain ⟨v, hv, h⟩ := withValueIn_next h
      cases h; exact .inr ⟨by omega, v, hv, rfl⟩

/-! ### A host read -/

/-- A host read that answers a next state returns data and changes no register; the counter moves on exactly
when the register is an input without a value. -/
theorem hostRead_next {r : Reg} {s t : State} (h : hostRead r s = .next t) :
    ∃ d, t = { s with readData := some d, freeReads := t.freeReads } ∧
      t.freeReads = s.freeReads +
        (if (r = .valueIn ∧ s.valueIn = none) ∨ (r = .bytesIn ∧ s.bytesIn = none) ∨
            (r = .textIn ∧ s.textIn = none) then 1 else 0) := by
  cases r <;> simp only [hostRead] at h <;> (try split at h) <;> cases h <;>
    exact ⟨_, rfl, by simp [*]⟩

/-! ### The cases of a step -/

/-- A step at a core with a command in progress, when the host does not reset it. -/
theorem step_of_work {s : State} {w : Work} (hw : s.work = some w) (hm : ∀ rest, s.moves ≠ .reset :: rest) :
    step s = finishWork w s := by
  obtain ⟨c, vi, bi, ti, st, vo, bo, xo, wk, mv, rd, fr⟩ := s
  cases hw
  cases mv with
  | nil => rfl
  | cons m r => cases m <;> first | rfl | exact absurd rfl (hm r)

/-- The same in the stepped reading. -/
theorem microStep_of_work {s : State} {w : Work} (hw : s.work = some w)
    (hm : ∀ rest, s.moves ≠ .reset :: rest) : microStep s = advance w s := by
  obtain ⟨c, vi, bi, ti, st, vo, bo, xo, wk, mv, rd, fr⟩ := s
  cases hw
  cases mv with
  | nil => rfl
  | cons m r => cases m <;> first | rfl | exact absurd rfl (hm r)

/-- A step at an idle core with a pending host move. -/
theorem step_of_move {s : State} {m : HostMove} {rest : List HostMove} (hw : s.work = none)
    (hm : s.moves = m :: rest) : step s = hostMove m { s with moves := rest } := by
  obtain ⟨c, vi, bi, ti, st, vo, bo, xo, wk, mv, rd, fr⟩ := s
  cases hw; cases hm; rfl

/-- The stepped reading differs at an idle core in the CMD write alone. -/
theorem microStep_of_move {s : State} {m : HostMove} {rest : List HostMove} (hw : s.work = none)
    (hm : s.moves = m :: rest) (hc : ∀ w, m ≠ .writeCmd w) :
    microStep s = hostMove m { s with moves := rest } := by
  obtain ⟨c, vi, bi, ti, st, vo, bo, xo, wk, mv, rd, fr⟩ := s
  cases hw; cases hm
  cases m <;> first | rfl | exact absurd rfl (hc _)

theorem microStep_of_writeCmd {s : State} {w : CmdWord} {rest : List HostMove} (hw : s.work = none)
    (hm : s.moves = .writeCmd w :: rest) : microStep s = startCmd w { s with moves := rest } := by
  obtain ⟨c, vi, bi, ti, st, vo, bo, xo, wk, mv, rd, fr⟩ := s
  cases hw; cases hm; rfl

theorem microFinish_of_idle (n : Nat) {s : State} (h : s.work = none) : microFinish n s = .next s := by
  cases n <;> simp [microFinish, h]

/-! ### A run of steps -/

theorem core_run_zero (s : State) : core.run 0 s = .next s := rfl

theorem run_succ (M : Host.Core) (n : Nat) (s : M.State) :
    M.run (n + 1) s =
      match M.step s with
      | .next t => M.run n t
      | .fault f => .fault f
      | .refused r => .refused r := by
  cases h : M.step s <;> simp [Host.Core.run, h]

theorem core_run_of_next {s t : State} (n : Nat) (h : step s = .next t) :
    core.run (n + 1) s = core.run n t := by
  have := run_succ core n s
  rw [show core.step s = .next t from h] at this
  exact this

theorem core_run_of_fault {s : State} {f : Fault} (n : Nat) (h : step s = .fault f) :
    core.run (n + 1) s = .fault f := by
  have := run_succ core n s
  rw [show core.step s = .fault f from h] at this
  exact this

theorem core_run_of_refused {s : State} {r : Refusal} (n : Nat) (h : step s = .refused r) :
    core.run (n + 1) s = .refused r := by
  have := run_succ core n s
  rw [show core.step s = .refused r from h] at this
  exact this

theorem core_run_one (s : State) : core.run 1 s = step s := by
  cases h : step s with
  | next t => exact core_run_of_next 0 h
  | fault f => exact core_run_of_fault 0 h
  | refused r => exact core_run_of_refused 0 h

end Sys2Proof.Machine
end

