-- ==== Sys2Proof/Laws/PerInstr.lean ====
section
/-! SUPPORT. What every command's word says in its fields (30_encoding.md R78, R80): one lemma a constructor. -/

namespace Sys2Proof.Laws

/-- The OP of R80. -/
def opNumber : Instr → BitVec 4
  | .encodeUint64 => 0x1#4
  | .decodeUint64 => 0x2#4
  | .encodeBytes => 0x3#4
  | .decodeBytes => 0x4#4
  | .beRead => 0x5#4
  | .beWrite _ => 0x6#4

/-- The LEN of R80: the byte count of be_write, 0 for every other command (R82). -/
def lenOperand : Instr → BitVec 4
  | .encodeUint64 => 0#4
  | .decodeUint64 => 0#4
  | .encodeBytes => 0#4
  | .decodeBytes => 0#4
  | .beRead => 0#4
  | .beWrite len => len

/-- A command's word holds its OP, its LEN and zero reserved bits (R80, R84). -/
def EncodeFields.Statement (i : Instr) : Prop :=
  opField (encode i) = opNumber i ∧ lenField (encode i) = lenOperand i ∧ rsvField (encode i) = 0#24

theorem EncodeFields.encodeUint64 : EncodeFields.Statement .encodeUint64 := by
  unfold EncodeFields.Statement; decide

theorem EncodeFields.decodeUint64 : EncodeFields.Statement .decodeUint64 := by
  unfold EncodeFields.Statement; decide

theorem EncodeFields.encodeBytes : EncodeFields.Statement .encodeBytes := by
  unfold EncodeFields.Statement; decide

theorem EncodeFields.decodeBytes : EncodeFields.Statement .decodeBytes := by
  unfold EncodeFields.Statement; decide

theorem EncodeFields.beRead : EncodeFields.Statement .beRead := by
  unfold EncodeFields.Statement; decide

theorem EncodeFields.beWrite (len : BitVec 4) : EncodeFields.Statement (.beWrite len) := by
  unfold EncodeFields.Statement; revert len; decide

end Sys2Proof.Laws
end

