-- ==== Sys2Proof/Laws/Platform.lean ====
section
/-! SUPPORT. What one step of an instance, and of a platform, can do. -/

namespace Sys2Proof.Machine

theorem instanceStep_of_stopped {x : Instance} {f : Fault} (h : x.fault = some f) : instanceStep x = x := by
  simp [instanceStep, h]

theorem instanceStep_of_next {x : Instance} {s : State} (hf : x.fault = none) (h : step x.state = .next s) :
    instanceStep x = { x with state := s } := by
  simp [instanceStep, hf, h]

theorem instanceStep_of_refused {x : Instance} {r : Refusal} (hf : x.fault = none)
    (h : step x.state = .refused r) :
    instanceStep x = { x with state := afterRefusal x.state, refusals := x.refusals ++ [r] } := by
  simp [instanceStep, hf, h]

theorem instanceStep_of_fault {x : Instance} {f : Fault} (hf : x.fault = none) (h : step x.state = .fault f) :
    instanceStep x = { x with fault := some f } := by
  simp [instanceStep, hf, h]

/-- A refused move leaves every field but the pending moves. -/
theorem afterRefusal_eq (s : State) : afterRefusal s = { s with moves := (afterRefusal s).moves } := by
  unfold afterRefusal; split <;> rfl

@[simp] theorem platformStep_length (j : Nat) (p : Platform) : (platformStep j p).length = p.length := by
  simp [platformStep]

/-- A step of the instance at `j` is that instance's own and no other's. -/
theorem platformStep_get (j k : Nat) (p : Platform) :
    (platformStep j p)[k]? = if j = k then p[k]?.map instanceStep else p[k]? := by
  simp only [platformStep, List.getElem?_modify]
  split <;> simp

end Sys2Proof.Machine
end

