-- ==== Sys2Proof/Machine/AssemblerText.lean ====
section
/-! DEFINITION. The written form of a host program (30_encoding.md B.4, R86, R87): one statement or
pseudo-instruction a line, `;` starts a comment. The spec gives the forms by example; the lexical points it
leaves open are log 22's. -/

namespace Sys2Proof.Machine

/-- A space or a tab. -/
def isBlank (c : Char) : Bool := c == ' ' || c == '\t'

/-- The line without the blanks in front. -/
def skipBlanks (l : List Char) : List Char := l.dropWhile isBlank

/-- A character of a word: no blank, comma, semicolon, bracket or quote. -/
def isWordChar (c : Char) : Bool := !(isBlank c || c == ',' || c == ';' || c == '[' || c == ']' || c == '"')

/-- The next word of the line, and what follows it. -/
def nextWord (l : List Char) : List Char × List Char :=
  ((skipBlanks l).takeWhile isWordChar, (skipBlanks l).dropWhile isWordChar)

/-- What follows the character, which may have blanks in front. -/
def afterChar (c : Char) (l : List Char) : Option (List Char) :=
  match skipBlanks l with
  | [] => none
  | x :: rest => if x = c then some rest else none

/-- Nothing but a comment is left. -/
def atLineEnd (l : List Char) : Bool :=
  match skipBlanks l with
  | [] => true
  | x :: _ => x == ';'

/-- The value of a hexadecimal digit; a decimal digit is one of the first ten. -/
def digitOf (c : Char) : Option Nat :=
  if '0' ≤ c ∧ c ≤ '9' then some (c.toNat - '0'.toNat)
  else if 'a' ≤ c ∧ c ≤ 'f' then some (c.toNat - 'a'.toNat + 10)
  else if 'A' ≤ c ∧ c ≤ 'F' then some (c.toNat - 'A'.toNat + 10)
  else none

/-- The digits left, most significant first, in the base, on top of the value read so far. -/
def readDigits (base : Nat) (value : Nat) : List Char → Option Nat
  | [] => some value
  | c :: rest =>
    match digitOf c with
    | none => none
    | some d => if d < base then readDigits base (value * base + d) rest else none

/-- A number: hexadecimal after `0x`, else decimal. -/
def readNumber (w : List Char) : Option Nat :=
  match w with
  | [] => none
  | ['0', 'x'] => none
  | '0' :: 'x' :: digits => readDigits 16 0 digits
  | digits => readDigits 10 0 digits

/-- A number word below the limit, and what follows it. -/
def numberBelow (limit : Nat) (l : List Char) : Option (Nat × List Char) :=
  match readNumber (nextWord l).1 with
  | none => none
  | some v => if v < limit then some (v, (nextWord l).2) else none

/-- The bytes left of a list, from its first byte on, up to the closing bracket. -/
def readBytes : Nat → Bytes → List Char → Option (Bytes × List Char)
  | 0, _, _ => none
  | fuel + 1, done, l =>
    match numberBelow 256 l with
    | none => none
    | some (v, rest) =>
      match skipBlanks rest with
      | ',' :: more => readBytes fuel (done ++ [BitVec.ofNat 8 v]) more
      | ']' :: more => some (done ++ [BitVec.ofNat 8 v], more)
      | _ => none

/-- A byte list `[<b0>, <b1>, ...]`; `[]` is empty (R86). -/
def readByteList (l : List Char) : Option (Bytes × List Char) :=
  match afterChar '[' l with
  | none => none
  | some rest =>
    match afterChar ']' rest with
    | some more => some ([], more)
    | none => readBytes rest.length [] rest

/-- The characters left of a string, up to the closing quote. `\xHH` gives any code (R86); a character
stands for its own code, which has 8 bits. -/
def readChars : List Char → Option (Text × List Char)
  | [] => none
  | '"' :: rest => some ([], rest)
  | '\\' :: 'x' :: h :: k :: rest =>
    match digitOf h, digitOf k, readChars rest with
    | some a, some b, some (t, more) => some (BitVec.ofNat 8 (a * 16 + b) :: t, more)
    | _, _, _ => none
  | c :: rest =>
    if c = '\\' ∨ 256 ≤ c.toNat then none
    else
      match readChars rest with
      | none => none
      | some (t, more) => some (BitVec.ofNat 8 c.toNat :: t, more)

/-- A string `"<chars>"` (R86). -/
def readText (l : List Char) : Option (Text × List Char) :=
  match afterChar '"' l with
  | none => none
  | some rest => readChars rest

/-- The operand's statements, if nothing but a comment follows the operand. -/
def closeLine {α : Type} (operand : Option (α × List Char)) (make : α → List Stmt) : Option (List Stmt) :=
  match operand with
  | none => none
  | some (x, rest) => if atLineEnd rest then some (make x) else none

/-- `cmd <mnemonic>` and `cmd be_write, <n>` (R86). -/
def parseCmd (l : List Char) : Option (List Stmt) :=
  let w := (nextWord l).1
  let rest := (nextWord l).2
  if w = "be_write".toList then
    match afterChar ',' rest with
    | none => none
    | some more => closeLine (numberBelow 16 more) fun n => [.cmd (.beWrite (BitVec.ofNat 4 n))]
  else if !atLineEnd rest then none
  else if w = "encode_uint64".toList then some [.cmd .encodeUint64]
  else if w = "decode_uint64".toList then some [.cmd .decodeUint64]
  else if w = "encode_bytes".toList then some [.cmd .encodeBytes]
  else if w = "decode_bytes".toList then some [.cmd .decodeBytes]
  else if w = "be_read".toList then some [.cmd .beRead]
  else none

/-- `wr <REG>, <operand>` (R86). -/
def parseWr (l : List Char) : Option (List Stmt) :=
  let w := (nextWord l).1
  match afterChar ',' (nextWord l).2 with
  | none => none
  | some rest =>
    if w = "VALUE_IN".toList then closeLine (numberBelow (2 ^ 64) rest) fun v => [.wrValueIn (BitVec.ofNat 64 v)]
    else if w = "BYTES_IN".toList then closeLine (readByteList rest) fun b => [.wrBytesIn b]
    else if w = "TEXT_IN".toList then closeLine (readText rest) fun t => [.wrTextIn t]
    else none

/-- `rd <REG>` (R86). -/
def parseRd (l : List Char) : Option (List Stmt) :=
  let w := (nextWord l).1
  if !atLineEnd (nextWord l).2 then none
  else if w = "STATUS".toList then some [.rd .status]
  else if w = "VALUE_OUT".toList then some [.rd .valueOut]
  else if w = "BYTES_OUT".toList then some [.rd .bytesOut]
  else if w = "TEXT_OUT".toList then some [.rd .textOut]
  else none

/-- `be_write <u64>, <n>` (R87). -/
def parseBeWrite (l : List Char) : Option (List Stmt) :=
  match numberBelow (2 ^ 64) l with
  | none => none
  | some (v, rest) =>
    match afterChar ',' rest with
    | none => none
    | some more =>
      closeLine (numberBelow 16 more) fun n =>
        expandPseudo (.beWrite (BitVec.ofNat 64 v) (BitVec.ofNat 4 n))

/-- One line: no statement, one of R86's, or a pseudo-instruction's two (R87); none where it is neither. -/
def parseLine (l : List Char) : Option (List Stmt) :=
  let w := (nextWord l).1
  let rest := (nextWord l).2
  if atLineEnd l then some []
  else if w = "wr".toList then parseWr rest
  else if w = "cmd".toList then parseCmd rest
  else if w = "cmd.raw".toList then
    closeLine (numberBelow (2 ^ 32) rest) fun x => [.cmdRaw (BitVec.ofNat 32 x)]
  else if w = "rd".toList then parseRd rest
  else if w = "encode_uint64".toList then
    closeLine (numberBelow (2 ^ 64) rest) fun v => expandPseudo (.encodeUint64 (BitVec.ofNat 64 v))
  else if w = "decode_uint64".toList then
    closeLine (readText rest) fun t => expandPseudo (.decodeUint64 t)
  else if w = "encode_bytes".toList then
    closeLine (readByteList rest) fun b => expandPseudo (.encodeBytes b)
  else if w = "decode_bytes".toList then
    closeLine (readText rest) fun t => expandPseudo (.decodeBytes t)
  else if w = "be_read".toList then
    closeLine (readByteList rest) fun b => expandPseudo (.beRead b)
  else if w = "be_write".toList then parseBeWrite rest
  else none

/-- The lines of a host program, one statement a line (R86). -/
def parseLines : List (List Char) → Option (List Stmt)
  | [] => some []
  | l :: rest =>
    match parseLine l, parseLines rest with
    | some a, some b => some (a ++ b)
    | _, _ => none

/-- A host program from its text. -/
def parseProgram (source : List Char) : Option (List Stmt) :=
  parseLines (source.splitOnP (· == '\n'))

end Sys2Proof.Machine
end

