-- ==== Sys2Proof/Tests/Slice0.lean ====
section
/-! SUPPORT. Tests of single steps against 95_test_vectors.md (the vector's id stands at each), the check of
WellFormed, words written out from 30_encoding.md R78 to R84, and for every statement with hypotheses a
witness that meets them (`witness_<statement>`). -/

namespace Sys2Proof.Tests

open Sys2Proof.Machine

/-! ### Helpers -/

/-- A text from its character codes. -/
def text (codes : List Nat) : Text := codes.map (BitVec.ofNat 8)

/-- A byte sequence from numbers. -/
def bytes (ns : List Nat) : Bytes := ns.map (BitVec.ofNat 8)

def holdsValue (v : U64) : State := { State.reset with valueIn := some v }
def holdsBytes (b : Bytes) : State := { State.reset with bytesIn := some b }
def holdsText (t : Text) : State := { State.reset with textIn := some t }
def holdsMoves (ms : List HostMove) : State := { State.reset with moves := ms }

/-- An instance of a platform that has run nothing yet. -/
def idleInstance (ms : List HostMove) : Instance := { state := holdsMoves ms, refusals := [], fault := none }

/-- STATUS and the three outputs. -/
structure Results where
  status : BitVec 8
  value : Option U64
  bytes : Option Bytes
  text : Option Text
  deriving DecidableEq, Repr

/-- STATUS and the three outputs after a step; none after a stop. -/
def results (o : Outcome) : Option Results :=
  match o with
  | .next t => some ⟨t.status, t.valueOut, t.bytesOut, t.textOut⟩
  | .fault _ => none
  | .refused _ => none

/-- The step answers a next state. -/
def completes (o : Outcome) : Bool :=
  match o with
  | .next _ => true
  | .fault _ => false
  | .refused _ => false

/-- "LygHa16AHYF", the largest u64 (E18). -/
def maxText : Text := text [0x4C, 0x79, 0x67, 0x48, 0x61, 0x31, 0x36, 0x41, 0x48, 0x59, 0x46]

/-- Its first ten symbols. -/
def maxText10 : Text := text [0x4C, 0x79, 0x67, 0x48, 0x61, 0x31, 0x36, 0x41, 0x48, 0x59]

/-- "zzzzzzzzzz" (E14). -/
def zText10 : Text := List.replicate 10 0x7A#8

/-! ### WellFormed -/

theorem test_wellFormed_beWrite_8 : Instr.wellFormed (.beWrite 8#4) = true := by decide
theorem test_illFormed_beWrite_9 : Instr.wellFormed (.beWrite 9#4) = false := by decide
theorem test_illFormed_beWrite_15 : Instr.wellFormed (.beWrite 15#4) = false := by decide

/-! ### Decode: each word from its fields, RSV then LEN then OP (R78, R80) -/

theorem test_decode_encodeUint64 : decode (0x000000#24 ++ 0b0000#4 ++ 0b0001#4) = .ok .encodeUint64 := by decide
theorem test_decode_decodeUint64 : decode (0x000000#24 ++ 0b0000#4 ++ 0b0010#4) = .ok .decodeUint64 := by decide
theorem test_decode_encodeBytes : decode (0x000000#24 ++ 0b0000#4 ++ 0b0011#4) = .ok .encodeBytes := by decide
theorem test_decode_decodeBytes : decode (0x000000#24 ++ 0b0000#4 ++ 0b0100#4) = .ok .decodeBytes := by decide
theorem test_decode_beRead : decode (0x000000#24 ++ 0b0000#4 ++ 0b0101#4) = .ok .beRead := by decide
theorem test_decode_beWrite_0 : decode (0x000000#24 ++ 0b0000#4 ++ 0b0110#4) = .ok (.beWrite 0#4) := by decide
theorem test_decode_beWrite_8 : decode (0x000000#24 ++ 0b1000#4 ++ 0b0110#4) = .ok (.beWrite 8#4) := by decide

/-- C1, C4, C5: a reserved OP. -/
theorem test_reject_op :
    decode 0x00000000#32 = .error (.reservedOp 0x0#4) ∧ decode 0x00000007#32 = .error (.reservedOp 0x7#4) ∧
    decode 0x0000000F#32 = .error (.reservedOp 0xF#4) := by decide

/-- C6, C9, C10: LEN. -/
theorem test_reject_len :
    decode 0x00000011#32 = .error (.lenNotZero 1#4 1#4) ∧ decode 0x00000096#32 = .error (.lenTooLarge 9#4) ∧
    decode 0x000000F6#32 = .error (.lenTooLarge 15#4) := by decide

/-- C11, C12: RSV, checked first. -/
theorem test_reject_rsv :
    decode 0x00000101#32 = .error (.reservedBits 1#24) ∧
    decode 0x80000003#32 = .error (.reservedBits 0x800000#24) ∧
    decode 0x00000197#32 = .error (.reservedBits 1#24) := by decide

/-- The table's numbering: the word is one 32-bit register. -/
theorem test_decodeTableWord :
    decodeTableWord 32 6 = some (.beWrite 0#4) ∧ decodeTableWord 32 0x86 = some (.beWrite 8#4) ∧
    decodeTableWord 32 7 = none ∧ decodeTableWord 8 5 = some .beRead := by decide

/-- Every command runs as the first step after reset, placed by `withFetchWord`. -/
theorem test_fetchWord :
    ([1, 2, 3, 4, 5, 6, 0x86].all fun w => completes (step (State.reset.withFetchWord 32 w))) = true := by
  decide

/-! ### The alphabet: A7 to A18 -/

theorem test_val :
    val 0x30#8 = some 0 ∧ val 0x4C#8 = some 21 ∧ val 0x6C#8 = some 47 ∧ val 0x2F#8 = none ∧ val 0x3A#8 = none ∧
    val 0x40#8 = none ∧ val 0x5B#8 = none ∧ val 0x60#8 = none ∧ val 0x7B#8 = none ∧ val 0x00#8 = none ∧
    val 0xFF#8 = none ∧ val 0xC1#8 = none := by decide

/-! ### encode_uint64 -/

/-- E15: the first value of eleven symbols. -/
theorem test_encodeUint64_E15 :
    results (exec .encodeUint64 (holdsValue 839299365868340224#64)) =
      some ⟨0#8, none, none, some (text [0x31, 0x30, 0x30, 0x30, 0x30, 0x30, 0x30, 0x30, 0x30, 0x30, 0x30])⟩ := by
  decide

/-- S1: 97281928754 is "1iBd3f0". -/
theorem test_encodeUint64_S1 :
    results (exec .encodeUint64 (holdsValue 97281928754#64)) =
      some ⟨0#8, none, none, some (text [0x31, 0x69, 0x42, 0x64, 0x33, 0x66, 0x30])⟩ := by
  decide

/-! ### decode_uint64 -/

/-- U6: leading zeros are taken. -/
theorem test_decodeUint64_U6 :
    results (exec .decodeUint64 (holdsText (text [0x30, 0x30, 0x37]))) = some ⟨0#8, some 7#64, none, none⟩ := by
  decide

/-- U15: the overflow at the eleventh symbol comes before the invalid thirteenth. -/
theorem test_decodeUint64_U15 :
    results (exec .decodeUint64 (holdsText (List.replicate 12 0x7A#8 ++ [0x21#8]))) =
      some ⟨3#8, none, none, none⟩ := by
  decide

/-- U21: the open parameter of R115, at each of its values. -/
theorem test_dec_U21 :
    dec .invalidFirst (zText10 ++ [0x21#8]) = .error .invalidCharacter ∧
    dec .overflowFirst (zText10 ++ [0x21#8]) = .error .overflow := by decide

/-! ### encode_bytes -/

/-- B13: a padded block and a one-byte final block. -/
theorem test_encodeBytes_B13 :
    results (exec .encodeBytes (holdsBytes (bytes [1, 2, 3, 4, 5, 6, 7, 8, 9]))) =
      some ⟨0#8, none, none,
        some (text [0x30, 0x35, 0x4D, 0x63, 0x4A, 0x6D, 0x44, 0x67, 0x72, 0x76, 0x63, 0x39, 0x31])⟩ := by
  decide

/-- B17: 16 zero bytes end with terminator 8. -/
theorem test_encodeBytes_B17 :
    results (exec .encodeBytes (holdsBytes (List.replicate 16 0#8))) =
      some ⟨0#8, none, none, some (List.replicate 12 0x30#8 ++ [0x38#8])⟩ := by
  decide

/-! ### decode_bytes -/

/-- D12: the high byte of the final window is dropped. -/
theorem test_decodeBytes_D12 :
    results (exec .decodeBytes (holdsText (text [0x34, 0x38, 0x30, 0x31]))) =
      some ⟨0#8, none, some [0#8], none⟩ := by
  decide

/-- D21: the terminator is checked before the content. -/
theorem test_decodeBytes_D21 :
    results (exec .decodeBytes (holdsText (text [0x21, 0x39]))) = some ⟨4#8, none, none, none⟩ := by
  decide

/-! ### be_read and be_write -/

/-- R5 of the vectors. -/
theorem test_beRead_R5 :
    results (exec .beRead (holdsBytes (bytes [1, 2, 3, 4, 5, 6, 7, 8]))) =
      some ⟨0#8, some 72623859790382856#64, none, none⟩ := by
  decide

/-- R7 of the vectors: nine bytes. -/
theorem test_beRead_R7 :
    results (exec .beRead (holdsBytes (bytes [1, 2, 3, 4, 5, 6, 7, 8, 9]))) = some ⟨5#8, none, none, none⟩ := by
  decide

/-- W2: the three low bytes. -/
theorem test_beWrite_W2 :
    results (exec (.beWrite 3#4) (holdsValue 0x0102030405060708#64)) =
      some ⟨0#8, none, some (bytes [6, 7, 8]), none⟩ := by
  decide

/-- W7: LEN 9, from the word 0x00000096, before any operand is read. -/
theorem test_beWrite_W7 : results (writeCmd 0x00000096#32 State.reset) = some ⟨5#8, none, none, none⟩ := by
  decide

/-! ### Host moves and reset -/

theorem test_read_status_after_reset :
    step (holdsMoves [.read .status]) = .next { State.reset with readData := some (.status 0x07#8) } := rfl

theorem test_read_output_without_value :
    step (holdsMoves [.read .textOut]) = .fault (.outputHasNoValue .textOut) := rfl

/-- R40: an input can be read whatever it holds, and the register stays without a value (R41). -/
theorem test_read_input_without_value :
    (match step (holdsMoves [.read .textIn]) with
      | .next t => t.textIn == none && t.readData.isSome && t.freeReads == 1
      | _ => false) = true := rfl

theorem test_command_without_operand :
    step (holdsMoves [.writeCmd 0x00000001#32]) = .refused (.operandNotWritten .valueIn) := rfl

/-! ### The written host program: lines of P1 to P4 -/

theorem test_parse_statements :
    parseLine "wr VALUE_IN, 97281928754".toList = some [.wrValueIn 97281928754#64] ∧
    parseLine "wr BYTES_IN, [0x09]".toList = some [.wrBytesIn [9#8]] ∧
    parseLine "cmd be_write, 8            ; CMD = 0x00000086".toList = some [.cmd (.beWrite 8#4)] ∧
    parseLine "cmd.raw 0x00000007         ; -> STATUS 5".toList = some [.cmdRaw 0x7#32] ∧
    parseLine "rd TEXT_OUT                ; a comment".toList = some [.rd .textOut] := by decide

/-- A string with an escape, an empty one, and a pseudo-instruction (R86, R87). -/
theorem test_parse_texts :
    parseLine "wr TEXT_IN, \"!9\\x2f\"".toList = some [.wrTextIn [0x21#8, 0x39#8, 0x2F#8]] ∧
    parseLine "wr TEXT_IN, \"\"".toList = some [.wrTextIn []] ∧
    parseLine "be_write 256, 1".toList = some [.wrValueIn 256#64, .cmd (.beWrite 1#4)] := by decide

theorem test_parse_rejects :
    parseLine "wr BYTES_IN, [256]".toList = none ∧ parseLine "cmd encode_uint64, 3".toList = none ∧
    parseLine "wr STATUS, 1".toList = none := by decide

/-! ### Witnesses: the alphabet and the command word -/

/-- The ends of the three ranges. -/
theorem witness_alphabetRomHoldsTheTable :
    (0 ≤ 9 ∧ 9 ≤ 9 ∧ alphabet[0]? = some 0x30#8 ∧ alphabet[9]? = some 0x39#8) ∧
    (10 ≤ 10 ∧ 35 ≤ 35 ∧ alphabet[10]? = some 0x41#8 ∧ alphabet[35]? = some 0x5A#8) ∧
    (36 ≤ 36 ∧ 61 ≤ 61 ∧ alphabet[36]? = some 0x61#8 ∧ alphabet[61]? = some 0x7A#8) := by decide

theorem witness_alphabetIsABijection : 61 ≤ 61 ∧ val 0x7A#8 = some 61 := by decide

/-- The two ends of each range, and the codes next to them. -/
theorem witness_valTakesExactlyTheThreeRanges :
    (0x30 ≤ (0x30#8).toNat ∧ (0x39#8).toNat ≤ 0x39) ∧ (0x41 ≤ (0x41#8).toNat ∧ (0x5A#8).toNat ≤ 0x5A) ∧
    (0x61 ≤ (0x61#8).toNat ∧ (0x7A#8).toNat ≤ 0x7A) ∧ (0x2F#8).toNat ≤ 0x2F ∧
    (0x3A ≤ (0x3A#8).toNat ∧ (0x40#8).toNat ≤ 0x40) ∧ (0x5B ≤ (0x5B#8).toNat ∧ (0x60#8).toNat ≤ 0x60) ∧
    0x7B ≤ (0x7B#8).toNat := by decide

theorem witness_everyU64HasOneEncodedString :
    (canonicalText maxText = true ∧ textValue maxText = (18446744073709551615#64).toNat) ∧
    (enc 18446744073709551615#64).length = 11 := by decide

/-- One word for each way to be rejected, and one for each command, at the ends of LEN's range. -/
theorem witness_commandWordsAreCheckedFirst :
    (0x100#32).toNat / 256 ≠ 0 ∧ (0x0#32).toNat % 16 = 0 ∧ 7 ≤ (0x7#32).toNat % 16 ∧
    ((0x11#32).toNat % 16 ≠ 6 ∧ (0x11#32).toNat / 16 % 16 ≠ 0) ∧
    ((0x96#32).toNat % 16 = 6 ∧ 8 < (0x96#32).toNat / 16 % 16) ∧
    (0x1#32).toNat = 1 ∧ (0x2#32).toNat = 2 ∧ (0x3#32).toNat = 3 ∧ (0x4#32).toNat = 4 ∧ (0x5#32).toNat = 5 ∧
    (0 ≤ 8 ∧ (0x6#32).toNat = 6 + 16 * 0) ∧ (8 ≤ 8 ∧ (0x86#32).toNat = 6 + 16 * 8) := by decide

theorem witness_decodeAcceptsExactlyTheEncodings :
    decode 0x86#32 = .ok (.beWrite 8#4) ∧ Instr.wellFormed (.beWrite 8#4) = true ∧
    encode (.beWrite 8#4) = 0x86#32 := by decide

/-! ### Witnesses: the step and the host's moves -/

theorem witness_stepRunsTheDecodedCommand :
    (holdsMoves [.writeCmd 0x1#32]).work = none ∧
    (holdsMoves [.writeCmd 0x1#32]).moves = .writeCmd 0x1#32 :: [] ∧
    decode 0x1#32 = .ok .encodeUint64 := by decide

theorem witness_idleCoreHoldsItsRegisters : State.reset.work = none ∧ State.reset.moves = [] := by decide

theorem witness_fetchWordRunsOnTheNextStep :
    tableCmdWord 32 0x86 = some 0x86#32 ∧ decode 0x86#32 = .ok (.beWrite 8#4) := by decide

/-- The capacities admit something at each end: the empty sequences, the longest bytes, a two-symbol text. -/
theorem witness_capacities :
    ([] : Bytes).length ≤ Config.maxInBytes ∧
    (List.replicate Config.maxInBytes 0#8).length ≤ Config.maxInBytes ∧
    ([] : Text).length ≤ Config.maxInChars ∧ (text [0x30, 0x30]).length ≤ Config.maxInChars :=
  ⟨Nat.zero_le _, by rw [List.length_replicate], Nat.zero_le _, Nat.le_add_right 2 _⟩

/-- A state for every clause: the writes, the reads of a register that holds a value and of one that does
not, and the refused moves. -/
theorem witness_hostMovesFollowTheAccessTable :
    (holdsMoves [.writeValueIn 5#64]).work = none ∧
    (holdsMoves [.writeValueIn 5#64]).moves = [.writeValueIn 5#64] ∧
    (holdsMoves [.writeBytesIn []]).moves = [.writeBytesIn []] ∧
    (holdsMoves [.writeTextIn []]).moves = [.writeTextIn []] ∧
    ({ holdsValue 5#64 with moves := [.read .valueIn] }).moves = [.read .valueIn] ∧
    ({ holdsValue 5#64 with moves := [.read .valueIn] }).valueIn = some 5#64 ∧
    ({ holdsBytes [] with moves := [.read .bytesIn] }).bytesIn = some [] ∧
    ({ holdsText [] with moves := [.read .textIn] }).textIn = some [] ∧
    (holdsMoves [.read .valueIn]).valueIn = none ∧ (holdsMoves [.read .bytesIn]).bytesIn = none ∧
    (holdsMoves [.read .textIn]).textIn = none ∧
    (holdsMoves [.read .status]).moves = [.read .status] ∧
    ({ State.reset with valueOut := some 5#64, moves := [.read .valueOut] }).valueOut = some 5#64 ∧
    ({ State.reset with bytesOut := some [], moves := [.read .bytesOut] }).bytesOut = some [] ∧
    ({ State.reset with textOut := some [], moves := [.read .textOut] }).textOut = some [] ∧
    (holdsMoves [.read .valueOut]).valueOut = none ∧ (holdsMoves [.read .bytesOut]).bytesOut = none ∧
    (holdsMoves [.read .textOut]).textOut = none ∧
    (holdsMoves [.read .cmd]).moves = [.read .cmd] ∧
    (holdsMoves [.writeStatus 0#8]).moves = [.writeStatus 0#8] ∧
    (holdsMoves [.writeValueOut 0#64]).moves = [.writeValueOut 0#64] ∧
    (holdsMoves [.writeBytesOut []]).moves = [.writeBytesOut []] ∧
    (holdsMoves [.writeTextOut []]).moves = [.writeTextOut []] := by decide

/-- A dutiful host's move, and an undutiful one at which the step stops. -/
theorem witness_stepCompletesExactlyForADutifulHost :
    (holdsMoves [.read .status]).work = none ∧
    (∀ m rest, (holdsMoves [.read .status]).moves = m :: rest → dutifulMove m (holdsMoves [.read .status])) ∧
    ¬ dutifulMove (.read .cmd) (holdsMoves [.read .cmd]) := by
  refine ⟨rfl, fun m rest h => ?_, by simp [dutifulMove, readableReg]⟩
  simp only [holdsMoves, List.cons.injEq] at h
  obtain ⟨rfl, rfl⟩ := h
  rfl

/-! ### Witnesses: reset -/

theorem witness_resetLeavesNoValueAndCommandsNeedOperands :
    State.reset.valueIn = none ∧ State.reset.textIn = none ∧ State.reset.bytesIn = none ∧
    (0#4).toNat ≤ 8 ∧ (8#4).toNat ≤ 8 := by decide

theorem witness_resetAbandonsACommandInProgress :
    ({ State.reset with work := some .deframeLength, moves := [.reset] }).moves = .reset :: [] := by decide

/-! ### Witnesses: the integer codec -/

theorem witness_encodeUint64WritesTheNumeral :
    (holdsValue 0#64).valueIn = some 0#64 ∧ (holdsValue 62#64).valueIn = some 62#64 ∧ 62#64 ≠ 0#64 := by decide

theorem witness_placeStepsExtractTheDigits : 0 ≤ 10 ∧ 10 ≤ 10 := by decide

/-- The largest value that fits. -/
theorem witness_decodeUint64ReturnsTheValue :
    (holdsText maxText).textIn = some maxText ∧ maxText ≠ [] ∧ inAlphabet maxText = true ∧
    textValue maxText ≤ 18446744073709551615 ∧ 11 ≤ maxText.length := by decide

/-- Each clause: the empty text; one symbol; "!" alone; "zzzzzzzzzz!" (U21). -/
theorem witness_decodeUint64RejectsEmptyAndInvalidTexts :
    (holdsText []).textIn = some [] ∧
    ((holdsText [0x7A#8]).textIn = some [0x7A#8] ∧ val 0x7A#8 = some 61) ∧
    ((holdsText ([] ++ 0x21#8 :: [])).textIn = some ([] ++ 0x21#8 :: []) ∧ inAlphabet [] = true ∧
      textValue [] ≤ 18446744073709551615 ∧ val 0x21#8 = none ∧ textValue [] * 62 ≤ 18446744073709551615) ∧
    ((holdsText (zText10 ++ 0x21#8 :: [])).textIn = some (zText10 ++ 0x21#8 :: []) ∧
      inAlphabet zText10 = true ∧ textValue zText10 ≤ 18446744073709551615 ∧
      18446744073709551615 < textValue zText10 * 62) := by decide

/-- "LygHa16AHYG" (U11). -/
theorem witness_decodeUint64OverflowsAtTheFirstSuchSymbol :
    (holdsText (maxText10 ++ 0x47#8 :: [])).textIn = some (maxText10 ++ 0x47#8 :: []) ∧
    inAlphabet maxText10 = true ∧ textValue maxText10 ≤ 18446744073709551615 ∧ val 0x47#8 = some 16 ∧
    18446744073709551615 < textValue maxText10 * 62 + 16 := by decide

theorem witness_sameSymbolOrderShowsOnlyThere :
    dec .invalidFirst (zText10 ++ 0x21#8 :: []) ≠ dec .overflowFirst (zText10 ++ 0x21#8 :: []) ∧
    inAlphabet zText10 = true ∧ textValue zText10 ≤ 18446744073709551615 ∧ val 0x21#8 = none ∧
    18446744073709551615 < textValue zText10 * 62 := by decide

/-- The digits 15 and 16 at the threshold: the largest sum that fits and the least that does not. -/
theorem witness_overflowIsTheThresholdTest :
    val 0x46#8 = some 15 ∧ val 0x47#8 = some 16 ∧
    (297528130221121800#64).toNat * 62 + 15 ≤ 18446744073709551615 ∧
    18446744073709551615 < (297528130221121800#64).toNat * 62 + 16 := by decide

theorem witness_integerRoundTrip :
    (holdsValue 62#64).valueIn = some 62#64 ∧
    exec .encodeUint64 (holdsValue 62#64) =
      .next { holdsValue 62#64 with status := 0#8, textOut := some [0x31#8, 0x30#8] } ∧
    62#64 ≠ 0#64 := ⟨rfl, rfl, by decide⟩

/-- "01" decodes to 1 and is not canonical; "1" is. -/
theorem witness_encodeInvertsDecodeOnCanonicalTexts :
    [0x31#8] ≠ ([] : Text) ∧ dec .invalidFirst [0x30#8, 0x31#8] = .ok 1#64 ∧
    canonicalText [0x30#8, 0x31#8] = false ∧ dec .invalidFirst [0x31#8] = .ok 1#64 ∧
    canonicalText [0x31#8] = true := by decide

/-! ### Witnesses: the byte codec -/

theorem witness_encodeBytesFramesTheBlocks :
    (holdsBytes []).bytesIn = some [] ∧ (holdsBytes (List.replicate 9 0#8)).bytesIn = some (List.replicate 9 0#8) ∧
    List.replicate 9 0#8 ≠ [] := by decide

theorem witness_encodedTextLength :
    (∀ x ∈ [List.replicate 8 0#8], x.length = 8) ∧ 1 ≤ [0#8].length ∧ [0#8].length ≤ 8 ∧
    [0#8].length = 1 ∧ (List.replicate 2 0#8).length = 2 ∧ (List.replicate 3 0#8).length = 3 ∧
    (List.replicate 4 0#8).length = 4 ∧ (List.replicate 5 0#8).length = 5 ∧
    (List.replicate 6 0#8).length = 6 ∧ (List.replicate 7 0#8).length = 7 ∧
    (List.replicate 8 0#8).length = 8 := by decide

/-- Full windows and a final window of 11 symbols, terminator 8; a final window of one and terminator 0; a
failing final window; a failing full window with more content after it. -/
theorem witness_decodeBytesRendersTheWindows :
    ((holdsText (([(maxText, 18446744073709551615#64)].map Prod.fst).flatten ++ maxText ++ [] ++ [0x38#8])).textIn =
        some (([(maxText, 18446744073709551615#64)].map Prod.fst).flatten ++ maxText ++ [] ++ [0x38#8]) ∧
      (∀ y ∈ [(maxText, 18446744073709551615#64)],
        y.1.length = 11 ∧ dec Config.sameSymbolOrder y.1 = .ok y.2) ∧
      1 ≤ maxText.length ∧ maxText.length ≤ 11 ∧ val 0x38#8 = some 8 ∧ 8 ≤ 8 ∧
      dec Config.sameSymbolOrder maxText = .ok 18446744073709551615#64) ∧
    ((holdsText ((([] : List (Text × U64)).map Prod.fst).flatten ++ [0x30#8] ++ [] ++ [0x30#8])).textIn =
        some ((([] : List (Text × U64)).map Prod.fst).flatten ++ [0x30#8] ++ [] ++ [0x30#8]) ∧
      1 ≤ [0x30#8].length ∧ [0x30#8].length ≤ 11 ∧ val 0x30#8 = some 0 ∧ 0 ≤ 8 ∧
      dec Config.sameSymbolOrder [0x30#8] = .ok 0#64) ∧
    dec Config.sameSymbolOrder [0x21#8] = .error .invalidCharacter ∧
    ((maxText10 ++ [0x47#8]).length = 11 ∧
      dec Config.sameSymbolOrder (maxText10 ++ [0x47#8]) = .error .overflow) := by decide

/-- The texts of length 0 and 1; the terminators '!' and '9'; the terminator '8' after content that decodes
and after content that does not. -/
theorem witness_decodeBytesChecksLengthThenTerminator :
    ((holdsText []).textIn = some [] ∧ ([] : Text).length < 2 ∧ [0x30#8].length < 2) ∧
    ((holdsText ([0x30#8] ++ [0x21#8])).textIn = some ([0x30#8] ++ [0x21#8]) ∧ [0x30#8] ≠ ([] : Text) ∧
      val 0x21#8 = none ∧ (val 0x39#8 = some 9 ∧ 8 < 9) ∧ (val 0x38#8 = some 8 ∧ 8 ≤ 8)) ∧
    dec Config.sameSymbolOrder (slice [0x30#8] (11 * 0) (11 * 0 + 11)) = .ok 0#64 ∧
    dec Config.sameSymbolOrder (slice [0x21#8] (11 * 0) (11 * 0 + 11)) = .error .invalidCharacter := by decide

theorem witness_byteRoundTrip :
    (holdsBytes []).bytesIn = some [] ∧
    exec .encodeBytes (holdsBytes []) =
      .next { holdsBytes [] with status := 0#8, textOut := some [0x30#8, 0x30#8] } := ⟨rfl, rfl⟩

theorem witness_decodedByteLength :
    decodeBlocks .overflowFirst [0x34#8, 0x37#8, 0x31#8] = .ok [0xFF#8] := by decide

/-! ### Witnesses: the big-endian commands -/

theorem witness_beReadGivesTheBigEndianValue :
    State.reset.bytesIn = none ∧
    (holdsBytes (List.replicate 8 1#8)).bytesIn = some (List.replicate 8 1#8) ∧
    (List.replicate 8 1#8).length ≤ 8 ∧
    (holdsBytes (List.replicate 9 1#8)).bytesIn = some (List.replicate 9 1#8) ∧
    8 < (List.replicate 9 1#8).length := by decide

theorem witness_beWriteRendersTheLowBytes :
    (holdsValue 1#64).valueIn = some 1#64 ∧ State.reset.valueIn = none ∧ (0#4).toNat ≤ 8 ∧ (8#4).toNat ≤ 8 ∧
    7 < (8#4).toNat ∧ 8 < (9#4).toNat := by decide

theorem witness_parseAndRenderAreInverse :
    (List.replicate 8 1#8).length ≤ 8 ∧ 8 ≤ 8 ∧ (255#64).toNat < 2 ^ (8 * 1) := by decide

theorem witness_parseIsInjectiveAtOneLength :
    (List.replicate 7 1#8).length < 8 ∧ (List.replicate 8 1#8).length = (List.replicate 8 1#8).length ∧
    (List.replicate 8 1#8).length ≤ 8 := by decide

/-! ### Witnesses: frames, outputs and errors -/

/-- A success and an error, both next states. -/
theorem witness_outputsHoldOnlyTheLastResult :
    exec (.beWrite 0#4) (holdsValue 5#64) =
      .next { holdsValue 5#64 with status := 0#8, bytesOut := some [] } ∧
    State.reset.valueOut = none ∧ State.reset.bytesOut = none ∧ State.reset.textOut = none :=
  ⟨rfl, rfl, rfl, rfl⟩

theorem witness_errorsLeaveNoPartialResult :
    exec .decodeUint64 (holdsText []) = .next { holdsText [] with status := 1#8 } := rfl

theorem witness_reportableCodesByCommand :
    Instr.wellFormed .beRead = true ∧ exec .beRead (holdsBytes []) =
      .next { holdsBytes [] with status := 0#8, valueOut := some 0#64 } ∧
    0x04#8 ∈ [0x00#8, 0x01#8, 0x02#8, 0x03#8, 0x04#8] := ⟨rfl, rfl, by decide⟩

/-- Two states that agree on VALUE_IN alone; a text output and a bytes output within the capacities. -/
theorem witness_resultsDependOnlyOnTheOperand :
    (sameOperand .encodeUint64 (holdsValue 0#64) { holdsValue 0#64 with textIn := some [], status := 4#8 } ∧
      exec .encodeUint64 (holdsValue 0#64) =
        .next { holdsValue 0#64 with status := 0#8, textOut := some [0x30#8] } ∧
      ∀ b, (holdsValue 0#64).bytesIn = some b → b.length ≤ Config.maxInBytes) ∧
    (Instr.wellFormed .decodeBytes = true ∧ exec .decodeBytes (holdsText [0x30#8, 0x30#8]) =
        .next { holdsText [0x30#8, 0x30#8] with status := 0#8, bytesOut := some [] } ∧
      ∀ u, (holdsText [0x30#8, 0x30#8]).textIn = some u → u.length ≤ Config.maxInChars) := by
  refine ⟨⟨rfl, rfl, fun b h => by cases h⟩, rfl, rfl, fun u h => ?_⟩
  cases h
  exact Nat.le_add_right 2 _

theorem witness_commandsAreIdempotent :
    exec .encodeUint64 (holdsValue 0#64) =
      .next { holdsValue 0#64 with status := 0#8, textOut := some [0x30#8] } := rfl

/-- After a failed decode_uint64 the next command word's operand is written, and so is it for a word that
no command has. -/
theorem witness_coreAcceptsTheNextCommandAtOnce :
    exec .decodeUint64 (holdsText []) = .next { holdsText [] with status := 1#8 } ∧
    (∀ j, decode 0x4#32 = .ok j → operandHeld j (holdsText []) = true) ∧
    (∀ j, decode 0x0#32 = .ok j → operandHeld j (holdsText []) = true) := by
  refine ⟨rfl, fun j h => ?_, fun j h => ?_⟩
  · cases (show decode 0x4#32 = .ok .decodeBytes by decide).symm.trans h
    rfl
  · cases (show decode 0x0#32 = .error (.reservedOp 0#4) by decide).symm.trans h

/-! ### Witnesses: the invariant and the stepped reading -/

/-- A core that has just started encode_uint64 in the stepped reading. -/
def busy : State := { holdsValue 1#64 with work := some .encodeZeroTest }

/-- The busy core meets the invariant. -/
theorem busy_inv : busy.Inv where
  reservedZero := by decide
  codeNotSix := by decide
  bytesInFits := fun _ h => by cases h
  textInFits := fun _ h => by cases h
  outputsAfterOk := fun _ => ⟨rfl, rfl, rfl⟩
  oneOutput := .inl ⟨rfl, rfl⟩
  textOutAlphabet := fun _ h => by cases h
  textOutFits := fun _ h => by cases h
  bytesOutFits := fun _ h => by cases h
  workInProgress := fun w h => by cases h; rfl

theorem witness_stepKeepsTheInvariant :
    busy.Inv ∧ step busy = .next { holdsValue 1#64 with status := 0#8, textOut := some [0x31#8] } :=
  ⟨busy_inv, rfl⟩

theorem witness_microStepKeepsTheInvariant :
    busy.Inv ∧ microStep busy = .next { busy with work := some (.encodePlaces (encodeStart 1#64)) } :=
  ⟨busy_inv, rfl⟩

theorem witness_steppedRunEndsAsTheAtomicCommand :
    operandHeld .encodeUint64 (holdsValue 1#64) = true ∧ operandHeld .decodeBytes (holdsText []) = true := by
  decide

theorem witness_steppedEncodeTakesElevenPlaces :
    (holdsValue 0#64).valueIn = some 0#64 ∧ (holdsValue 1#64).valueIn = some 1#64 ∧ 1#64 ≠ 0#64 ∧ 10 ≤ 10 := by
  decide

/-- The text "0!": its first symbol passes and its last fails; and "0", whose one symbol is the last. -/
theorem witness_steppedDecodeTakesOneStepASymbol :
    (holdsText [0x30#8, 0x21#8]).textIn = some [0x30#8, 0x21#8] ∧
    ([0x30#8, 0x21#8] : Text)[1]? = some 0x21#8 ∧
    decodeFrom Config.sameSymbolOrder 0#64 (([0x30#8, 0x21#8] : Text).take 1) = .ok 0#64 ∧
    decodeSymbol Config.sameSymbolOrder 0#64 0x21#8 = .error .invalidCharacter ∧
    (holdsText []).textIn = some [] ∧ ([0x30#8] : Text)[0]? = some 0x30#8 ∧
    decodeFrom Config.sameSymbolOrder 0#64 (([0x30#8] : Text).take 0) = .ok 0#64 ∧
    0 + 1 = ([0x30#8] : Text).length := by decide

/-- No bytes; nine bytes before their second window; a text too short; a bad terminator; a text of two
windows before its second. -/
theorem witness_steppedFramersTakeOneStepAWindow :
    ((holdsBytes []).bytesIn = some [] ∧ 1 < ((List.replicate 9 0#8).length + 7) / 8 ∧
      List.replicate 9 0#8 ≠ []) ∧
    ((holdsText []).textIn = some [] ∧ ([] : Text).length < 2 ∧ 2 ≤ [0x30#8, 0x39#8].length ∧
      terminatorValue [0x30#8, 0x39#8] = .error .malformedTerminator) ∧
    (terminatorValue (List.replicate 13 0x30#8) = .ok 0 ∧
      1 < ((List.replicate 13 0x30#8).length - 1 + 10) / 11 ∧
      deframeLoop Config.sameSymbolOrder (List.replicate 13 0x30#8) 1 (deframeStart (List.replicate 13 0x30#8) 0) =
        .ok { lbs := 0, cl := 12, off := 11, out := List.replicate 8 0#8 }) := by decide

theorem witness_commandInProgressEndsAsItsCommand :
    busy.Inv ∧ busy.work = some .encodeZeroTest ∧ ∀ rest, busy.moves ≠ .reset :: rest :=
  ⟨busy_inv, rfl, fun _ h => by cases h⟩

theorem witness_noHostMoveLandsDuringACommand :
    busy.work = some .encodeZeroTest ∧ (∀ rest, busy.moves ≠ .reset :: rest) ∧
    microStep busy = .next { busy with work := some (.encodePlaces (encodeStart 1#64)) } ∧
    ∀ rest, [HostMove.writeCmd 1#32] ≠ .reset :: rest :=
  ⟨rfl, fun _ h => (by cases h), rfl, fun _ h => (by cases h)⟩

/-! ### Witnesses: instances and pseudo-instructions -/

/-- The first instance is refused at its second step and the second faults at its only one: the first goes on
to its next move, and an instance that has no refusal runs as the core does. -/
theorem witness_interleavingGivesEachInstanceItsOwnResult :
    platformRun [0, 1, 0, 0] [idleInstance [.writeValueIn 5#64, .writeCmd 0x2#32, .writeCmd 0x1#32],
        idleInstance [.read .textOut]] =
      [{ state := { holdsValue 5#64 with cmd := some 0x1#32, status := 0#8, textOut := some [0x35#8] },
         refusals := [.operandNotWritten .textIn], fault := none },
       { idleInstance [.read .textOut] with fault := some (.outputHasNoValue .textOut) }] ∧
    (idleInstance [.writeValueIn 5#64]).fault = none ∧
    core.run 1 (idleInstance [.writeValueIn 5#64]).state = .next (holdsValue 5#64) ∧
    core.run 1 (idleInstance [.read .textOut]).state = .fault (.outputHasNoValue .textOut) :=
  ⟨rfl, rfl, rfl, rfl⟩

/-- A refused and a faulting move on an idle core. -/
theorem witness_refusedMoveLeavesItsInstanceGoingOn :
    (idleInstance [.read .cmd]).fault = none ∧ (idleInstance [.read .cmd]).state.work = none ∧
    step (idleInstance [.read .cmd]).state = .refused .readOfCmd ∧
    step (idleInstance [.read .textOut]).state = .fault (.outputHasNoValue .textOut) :=
  ⟨rfl, rfl, rfl, rfl⟩

theorem witness_pseudoInstructionsWriteThenCommand :
    State.reset.work = none ∧ State.reset.moves = [] ∧ ([] : Text).length ≤ Config.maxInChars ∧
    ([] : Bytes).length ≤ Config.maxInBytes ∧ 8 ≤ 8 :=
  ⟨rfl, rfl, Nat.zero_le _, Nat.zero_le _, Nat.le_refl 8⟩

end Sys2Proof.Tests
end

section
/-! The family 10_state: the reset values and the refusal of a command without its operand (R41), and which
output holds a value after a command (R31). -/

namespace Sys2Proof.Machine

/-! ### Reading an operand that holds no value -/

theorem withValueIn_of_none {s : State} (h : s.valueIn = none) (run : U64 → Outcome) :
    withValueIn s run = .refused (.operandNotWritten .valueIn) := by
  simp [withValueIn, h]

theorem withBytesIn_of_none {s : State} (h : s.bytesIn = none) (run : Bytes → Outcome) :
    withBytesIn s run = .refused (.operandNotWritten .bytesIn) := by
  simp [withBytesIn, h]

theorem withTextIn_of_none {s : State} (h : s.textIn = none) (run : Text → Outcome) :
    withTextIn s run = .refused (.operandNotWritten .textIn) := by
  simp [withTextIn, h]

/-- A be_write with a LEN it has, on a core whose VALUE_IN was never written. -/
theorem exec_beWrite_of_none {s : State} (h : s.valueIn = none) {len : BitVec 4} (hl : len.toNat ≤ 8) :
    exec (.beWrite len) s = .refused (.operandNotWritten .valueIn) := by
  rw [exec, execBeWrite, if_neg (show ¬ 8 < len.toNat by omega), withValueIn_of_none h]

/-- Settles O13: the reset values are fields of `State.reset`, and every command begins with the read of its
operand, which has no value. -/
theorem resetLeavesNoValueAndCommandsNeedOperands :
    Obligations.ResetLeavesNoValueAndCommandsNeedOperands := by
  refine ⟨⟨rfl, rfl, rfl, rfl, rfl, rfl, rfl, rfl, rfl⟩, fun s => ?commands⟩
  exact ⟨fun h => withValueIn_of_none h _, fun h => withTextIn_of_none h _,
    fun h => withBytesIn_of_none h _, fun h => withTextIn_of_none h _,
    fun h => withBytesIn_of_none h _, fun _ hl h => exec_beWrite_of_none h hl⟩

/-! ### How a command ends -/

/-- Every next state of a command is its end: an error with no output, or a success where its own output
alone holds a value (R31, R207). -/
theorem exec_next_endCommand {i : Instr} {s t : State} (h : exec i s = .next t) :
    (∃ e, t = endCommand (errorCode e) none none none s) ∨
    ∃ v b x, t = endCommand codeOk v b x s ∧
      (v.isSome ↔ i = .decodeUint64 ∨ i = .beRead) ∧
      (b.isSome ↔ i = .decodeBytes ∨ ∃ len, i = .beWrite len) ∧
      (x.isSome ↔ i = .encodeUint64 ∨ i = .encodeBytes) := by
  have hc := exec_cases h
  cases i with
  | encodeUint64 =>
    obtain ⟨v, -, ht⟩ := hc
    exact .inr ⟨_, _, _, ht, by simp⟩
  | decodeUint64 =>
    obtain ⟨u, -, ⟨e, -, ht⟩ | ⟨v, -, ht⟩⟩ := hc
    · exact .inl ⟨e, ht⟩
    · exact .inr ⟨_, _, _, ht, by simp⟩
  | encodeBytes =>
    obtain ⟨b, -, ht⟩ := hc
    exact .inr ⟨_, _, _, ht, by simp⟩
  | decodeBytes =>
    obtain ⟨u, -, ⟨e, -, ht⟩ | ⟨b, -, ht⟩⟩ := hc
    · exact .inl ⟨e, ht⟩
    · exact .inr ⟨_, _, _, ht, by simp⟩
  | beRead =>
    obtain ⟨b, -, ⟨-, ht⟩ | ⟨-, ht⟩⟩ := hc
    · exact .inl ⟨_, ht⟩
    · exact .inr ⟨_, _, _, ht, by simp⟩
  | beWrite len =>
    obtain ⟨-, ht⟩ | ⟨-, v, -, ht⟩ := hc
    · exact .inl ⟨_, ht⟩
    · exact .inr ⟨_, _, _, ht, by simp⟩

/-- STATUS is 0 exactly when its CODE is OK: the reserved bits are 0 anyway. -/
theorem statusWith_eq_zero_iff (c : BitVec 3) : statusWith c = 0x00#8 ↔ c = codeOk := by
  revert c; decide

/-! ### A host read of an output that holds no value -/

theorem hostRead_valueOut_of_none {s : State} (h : s.valueOut = none) :
    hostRead .valueOut s = .fault (.outputHasNoValue .valueOut) := by
  simp [hostRead, h]

theorem hostRead_bytesOut_of_none {s : State} (h : s.bytesOut = none) :
    hostRead .bytesOut s = .fault (.outputHasNoValue .bytesOut) := by
  simp [hostRead, h]

theorem hostRead_textOut_of_none {s : State} (h : s.textOut = none) :
    hostRead .textOut s = .fault (.outputHasNoValue .textOut) := by
  simp [hostRead, h]

/-- Settles O36: the frame is that of `endCommand`; an error's code is not OK and leaves no output, and a
success has code OK and leaves the command's own output alone. -/
theorem outputsHoldOnlyTheLastResult : Obligations.OutputsHoldOnlyTheLastResult := by
  refine ⟨fun i s t h => ?_, fun s =>
    ⟨hostRead_valueOut_of_none, hostRead_bytesOut_of_none, hostRead_textOut_of_none⟩⟩
  obtain ⟨e, rfl⟩ | ⟨v, b, x, rfl, hv, hb, hx⟩ := exec_next_endCommand h
  · have he : statusWith (errorCode e) ≠ 0x00#8 := mt (statusWith_eq_zero_iff _).mp (errorCode_ne_ok e)
    exact ⟨rfl, rfl, rfl, rfl, rfl, rfl, rfl, rfl, statusReserved_statusWith _,
      by simp [he], by simp [he], by simp [he]⟩
  · have hok : statusWith codeOk = 0x00#8 := rfl
    exact ⟨rfl, rfl, rfl, rfl, rfl, rfl, rfl, rfl, statusReserved_statusWith _,
      by simp [hok, hv], by simp [hok, hb], by simp [hok, hx]⟩

end Sys2Proof.Machine
end

section
/-! The family 20_memory: the instances of a platform share nothing, so a schedule gives each the run it has
alone (R62). -/

namespace Sys2Proof.Machine

/-! ### A schedule, seen from one position -/

theorem platformRun_length (schedule : List Nat) (p : Platform) :
    (platformRun schedule p).length = p.length := by
  induction schedule generalizing p with
  | nil => rfl
  | cons i rest ih => rw [platformRun, ih, platformStep_length]

/-- The instance at a position sees only the schedule's own steps of that position. -/
theorem platformRun_get {schedule : List Nat} {p : Platform} {j : Nat} {x : Instance} (hx : p[j]? = some x) :
    (platformRun schedule p)[j]? = some (instanceRun (schedule.count j) x) := by
  induction schedule generalizing p x with
  | nil => exact hx
  | cons i rest ih =>
    rw [platformRun]
    obtain rfl | hij := eq_or_ne i j
    · have hown : (platformStep i p)[i]? = some (instanceStep x) := by simp [platformStep_get, hx]
      rw [ih hown, List.count_cons_self, instanceRun]
    · have hother : (platformStep i p)[j]? = some x := by simp [platformStep_get, hij, hx]
      rw [ih hother, List.count_cons_of_ne hij]

/-! ### One instance alone, against the core's own run -/

theorem instanceRun_of_stopped {x : Instance} {f : Fault} (h : x.fault = some f) (n : Nat) :
    instanceRun n x = x := by
  induction n with
  | zero => rfl
  | succ n ih => rw [instanceRun, instanceStep_of_stopped h, ih]

/-- Where the core's run gives a next state, every step of the instance gave one. -/
theorem instanceRun_of_run_next {n : Nat} {x : Instance} {t : State} (hf : x.fault = none)
    (h : core.run n x.state = .next t) : instanceRun n x = { x with state := t } := by
  induction n generalizing x with
  | zero =>
    cases h
    rfl
  | succ n ih =>
    cases hs : step x.state with
    | next s =>
      rw [core_run_of_next n hs] at h
      rw [instanceRun, instanceStep_of_next hf hs, ih (x := { x with state := s }) hf h]
    | fault f => simp [core_run_of_fault n hs] at h
    | refused r => simp [core_run_of_refused n hs] at h

/-- Where the core's run faults, the instance stops at that fault, in the state it faulted in, and no step
before it was refused. -/
theorem instanceRun_of_run_fault {n : Nat} {x : Instance} {f : Fault} (hf : x.fault = none)
    (h : core.run n x.state = .fault f) : ∃ t, instanceRun n x = { x with state := t, fault := some f } := by
  induction n generalizing x with
  | zero => cases h
  | succ n ih =>
    cases hs : step x.state with
    | next s =>
      rw [core_run_of_next n hs] at h
      rw [instanceRun, instanceStep_of_next hf hs]
      exact ih hf h
    | fault g =>
      rw [core_run_of_fault n hs] at h
      cases h
      exact ⟨x.state, by rw [instanceRun, instanceStep_of_fault hf hs, instanceRun_of_stopped rfl]⟩
    | refused r => simp [core_run_of_refused n hs] at h

/-- Settles O51: by induction on the schedule each position has its instance's own run, and that run follows
the core's as long as no move is refused. -/
theorem interleavingGivesEachInstanceItsOwnResult : Obligations.InterleavingGivesEachInstanceItsOwnResult := by
  refine fun schedule p => ⟨platformRun_length schedule p, fun j x hx => ?_⟩
  have hown := platformRun_get (schedule := schedule) hx
  refine ⟨hown, fun hf => ⟨fun t ht => ?next, fun f hfault => ?fault⟩⟩
  case next => rw [hown, instanceRun_of_run_next hf ht]
  case fault =>
    obtain ⟨t, ht⟩ := instanceRun_of_run_fault hf hfault
    exact ⟨_, hown.trans (congrArg some ht), rfl, rfl⟩

end Sys2Proof.Machine
end

section
/-! The family 30_encoding: the alphabet ROM and its two maps (R70 to R73), the terminator of a byte text (R76),
the command word (R80 to R84), and the pseudo-instructions (R87). -/

namespace Sys2Proof.Machine

/-! ### The alphabet ROM, by its three ranges (R70) -/

theorem alphabet_digit : ∀ i, i ≤ 9 → alphabet[i]? = some (BitVec.ofNat 8 (0x30 + i)) := by decide

theorem alphabet_upper :
    ∀ i, 10 ≤ i → i ≤ 35 → alphabet[i]? = some (BitVec.ofNat 8 (0x41 + (i - 10))) := by decide

theorem alphabet_lower :
    ∀ i, 36 ≤ i → i ≤ 61 → alphabet[i]? = some (BitVec.ofNat 8 (0x61 + (i - 36))) := by decide

/-- Settles O1: the ROM is a table of 62 entries, read range by range. -/
theorem alphabetRomHoldsTheTable : Obligations.AlphabetRomHoldsTheTable :=
  ⟨rfl, alphabet_digit, alphabet_upper, alphabet_lower⟩

/-! ### SYM and VAL (R71, R72) -/

/-- SYM reads an entry of the ROM. -/
theorem sym_of_getElem? {v : Nat} {c : CharCode} (h : alphabet[v]? = some c) : sym v = c := by
  simp [sym, List.getD, h]

theorem val_digit {c : CharCode} (h : 0x30 ≤ c.toNat ∧ c.toNat ≤ 0x39) : val c = some (c.toNat - 0x30) := by
  rw [val, if_pos h]

theorem val_upper {c : CharCode} (h : 0x41 ≤ c.toNat ∧ c.toNat ≤ 0x5A) :
    val c = some (c.toNat - 0x41 + 10) := by
  rw [val, if_neg (by omega), if_pos h]

theorem val_lower {c : CharCode} (h : 0x61 ≤ c.toNat ∧ c.toNat ≤ 0x7A) :
    val c = some (c.toNat - 0x61 + 36) := by
  rw [val, if_neg (by omega), if_neg (by omega), if_pos h]

/-- A code outside the three ranges stands in one of the four rejected ones. -/
theorem val_rejected {c : CharCode}
    (h : c.toNat ≤ 0x2F ∨ 0x3A ≤ c.toNat ∧ c.toNat ≤ 0x40 ∨ 0x5B ≤ c.toNat ∧ c.toNat ≤ 0x60 ∨ 0x7B ≤ c.toNat) :
    val c = none := by
  rw [val, if_neg (by omega), if_neg (by omega), if_neg (by omega)]

theorem ofNat_eq_of_toNat {c : CharCode} {n : Nat} (h : n = c.toNat) : BitVec.ofNat 8 n = c := by
  rw [h, BitVec.ofNat_toNat, BitVec.setWidth_eq]

/-- A code with a value stands in the ROM at that value. -/
theorem alphabet_of_val {c : CharCode} {v : Nat} (h : val c = some v) : alphabet[v]? = some c := by
  unfold val at h
  split_ifs at h with hd hu hl
  · cases h
    rw [alphabet_digit _ (by omega)]
    exact congrArg some (ofNat_eq_of_toNat (by omega))
  · cases h
    rw [alphabet_upper _ (by omega) (by omega)]
    exact congrArg some (ofNat_eq_of_toNat (by omega))
  · cases h
    rw [alphabet_lower _ (by omega) (by omega)]
    exact congrArg some (ofNat_eq_of_toNat (by omega))

theorem val_sym : ∀ v, v ≤ 61 → val (sym v) = some v := by decide

/-- A place of the ROM is one of 0 to 61. -/
theorem le_of_alphabet {c : CharCode} {v : Nat} (h : alphabet[v]? = some c) : v ≤ 61 :=
  Nat.le_of_lt_succ (List.getElem?_eq_some_iff.mp h).1

/-- VAL inverts the ROM: a code's value is its place there. -/
theorem val_eq_some_iff {c : CharCode} {v : Nat} : val c = some v ↔ alphabet[v]? = some c := by
  refine ⟨alphabet_of_val, fun h => ?_⟩
  rw [← sym_of_getElem? h]
  exact val_sym v (le_of_alphabet h)

/-- Settles O2: VAL's value of a code is the code's place in the ROM, and SYM reads the ROM. -/
theorem alphabetIsABijection : Obligations.AlphabetIsABijection := by
  refine ⟨val_sym, fun c v h => ?_⟩
  have hrom := alphabet_of_val h
  exact ⟨le_of_alphabet hrom, sym_of_getElem? hrom⟩

theorem val_isSome_iff_mem_alphabet (c : CharCode) : (val c).isSome = true ↔ c ∈ alphabet := by
  simp only [Option.isSome_iff_exists, val_eq_some_iff, List.mem_iff_getElem?]

/-- Settles O3: the ranges are VAL's branches, the accepted codes are the ROM's, and the 194 rejected codes
are counted. -/
theorem valTakesExactlyTheThreeRanges : Obligations.ValTakesExactlyTheThreeRanges :=
  ⟨fun c => ⟨val_digit, val_upper, val_lower, val_rejected, val_isSome_iff_mem_alphabet c⟩, rfl⟩

/-! ### The terminator of a byte text (R76, R143) -/

/-- The last window ends the text with the symbol of the bytes it holds; `w` stands before a window with
the bytes it has left. -/
theorem fragmentLoop_getLast? {b : Bytes} {n : Nat} {w : FragmenterWork} (hlt : w.off < b.length)
    (hrem : w.remaining = b.length - w.off) (hfuel : b.length ≤ w.off + 8 * n) :
    (fragmentLoop b n w).out.getLast? = some (sym ((b.length - w.off - 1) % 8 + 1)) := by
  induction n generalizing w with
  | zero => omega
  | succ n ih =>
    rw [fragmentLoop, if_pos hlt]
    have hoff : (fragmentStep b w).off = w.off + 8 := rfl
    by_cases hmore : w.off + 8 < b.length
    · rw [ih (w := fragmentStep b w) hmore rfl (by omega), hoff]
      congr 3; omega
    · rw [fragmentLoop_of_done b n _ (by omega), fragmentStep]
      simp only [Config.blockBytes]
      rw [if_neg (by omega), List.getLast?_append, List.getLast?_singleton, Option.some_or]
      congr 2; omega

/-- The last symbol of EB's text (R76). -/
theorem encodeBlocks_getLast? (b : Bytes) :
    (encodeBlocks b).getLast? =
      some (sym (if b.length = 0 then 0 else if b.length % 8 = 0 then 8 else b.length % 8)) := by
  by_cases hb : b = []
  · subst hb; rfl
  · have hpos : 0 < b.length := List.length_pos_iff.mpr hb
    have hfuel := le_blockCount b.length
    rw [encodeBlocks, if_neg hb, fragmentLoop_getLast? (w := fragmentStart b) hpos rfl (by omega)]
    have hoff : (fragmentStart b).off = 0 := rfl
    congr 2
    split_ifs <;> omega

/-- Settles O25: the last symbol is SYM of the final block's length, which VAL gives back. -/
theorem terminatorIsTheFinalBlockLength : Obligations.TerminatorIsTheFinalBlockLength := by
  refine fun b => ⟨_, encodeBlocks_getLast? b, val_sym _ ?_⟩
  split_ifs <;> omega

/-! ### The fields of a command word (R78) -/

theorem opField_toNat (w : CmdWord) : (opField w).toNat = w.toNat % 16 := by
  simp [opField]

theorem lenField_toNat (w : CmdWord) : (lenField w).toNat = w.toNat / 16 % 16 := by
  simp [lenField, Nat.shiftRight_eq_div_pow]

theorem rsvField_toNat (w : CmdWord) : (rsvField w).toNat = w.toNat / 256 := by
  have := w.isLt
  rw [rsvField, BitVec.extractLsb'_toNat, Nat.shiftRight_eq_div_pow, Nat.mod_eq_of_lt (by omega)]

/-- The three fields are the whole word. -/
theorem cmdWord_toNat (w : CmdWord) :
    w.toNat = (opField w).toNat + 16 * (lenField w).toNat + 256 * (rsvField w).toNat := by
  rw [opField_toNat, lenField_toNat, rsvField_toNat]
  omega

theorem encodeFields (i : Instr) : Laws.EncodeFields.Statement i :=
  match i with
  | .encodeUint64 => Laws.EncodeFields.encodeUint64
  | .decodeUint64 => Laws.EncodeFields.decodeUint64
  | .encodeBytes => Laws.EncodeFields.encodeBytes
  | .decodeBytes => Laws.EncodeFields.decodeBytes
  | .beRead => Laws.EncodeFields.beRead
  | .beWrite len => Laws.EncodeFields.beWrite len

/-- A command's word as a number (R80). -/
theorem encode_toNat (i : Instr) :
    (encode i).toNat = (Laws.opNumber i).toNat + 16 * (Laws.lenOperand i).toNat := by
  obtain ⟨hop, hlen, hrsv⟩ := encodeFields i
  rw [cmdWord_toNat, hop, hlen, hrsv]
  rfl

/-! ### DecodeCmd and the encoder (R81) -/

/-- The opcode map answers a command with that OP, and be_write with that LEN. -/
theorem opCommand_eq_some {op len : BitVec 4} {i : Instr} (h : opCommand op len = some i) :
    op = Laws.opNumber i ∧ Laws.lenOperand i = if op = 0x6#4 then len else 0#4 := by
  unfold opCommand at h
  split_ifs at h <;> cases h <;> simp_all [Laws.opNumber, Laws.lenOperand]

/-- Each check of R81 passes on a command's own word. -/
theorem decode_encode {i : Instr} (h : i.wellFormed = true) : decode (encode i) = .ok i := by
  obtain ⟨hop, hlen, hrsv⟩ := encodeFields i
  unfold decode
  rw [hop, hlen, hrsv]
  cases i with
  | beWrite len =>
    have hle : len.toNat ≤ 8 := of_decide_eq_true h
    simp [opCommand, Laws.opNumber, Laws.lenOperand, Config.blockBytes, hle]
  | _ => rfl

/-- A command is one the core has exactly when its LEN is at most 8 (R82). -/
theorem wellFormed_iff (i : Instr) : i.wellFormed = true ↔ (Laws.lenOperand i).toNat ≤ 8 := by
  cases i with
  | beWrite len => exact decide_eq_true_iff
  | _ => decide

/-- An accepted word is its command's own: it passed the three checks, so its fields are the command's. -/
theorem encode_of_decode {w : CmdWord} {i : Instr} (h : decode w = .ok i) :
    i.wellFormed = true ∧ encode i = w := by
  unfold decode at h
  split at h
  · cases h
  rename_i hrsv
  split at h
  · cases h
  rename_i hi
  obtain ⟨hop, hlen⟩ := opCommand_eq_some hi
  split_ifs at h with hzero hlarge
  cases h
  have hfield : Laws.lenOperand i = lenField w := by
    rw [hlen]
    split_ifs with h6
    · rfl
    · exact (not_not.mp fun hne => hzero ⟨h6, hne⟩).symm
  constructor
  · rw [wellFormed_iff]
    by_cases h6 : opField w = 0x6#4
    · have : ¬ 8 < (lenField w).toNat := fun hlt => hlarge ⟨h6, hlt⟩
      rw [hfield]; omega
    · rw [hlen, if_neg h6]; decide
  · apply BitVec.eq_of_toNat_eq
    rw [encode_toNat, cmdWord_toNat w, hop, hfield, not_not.mp hrsv]
    rfl

/-! ### A host write of CMD (R81, R205) -/

theorem writeCmd_of_error {w : CmdWord} {e : DecodeReject} (h : decode w = .error e) (s : State) :
    writeCmd w s = abort .illegalCommand { s with cmd := some w } := by
  simp [writeCmd, h]

theorem writeCmd_encode {i : Instr} (h : i.wellFormed = true) (s : State) :
    writeCmd (encode i) s = exec i { s with cmd := some (encode i) } := by
  simp [writeCmd, decode_encode h]

/-- A word with the number of a command's word runs that command. -/
theorem writeCmd_of_toNat {i : Instr} {w : CmdWord} (hi : i.wellFormed = true)
    (hw : w.toNat = (encode i).toNat) (s : State) : ∃ c, writeCmd w s = exec i { s with cmd := c } := by
  obtain rfl := BitVec.eq_of_toNat_eq hw
  exact ⟨_, writeCmd_encode hi s⟩

/-- The OPs of R80, and LEN is 0 where the OP is not be_write's (R82). -/
theorem opNumber_lenOperand_bounds (i : Instr) :
    1 ≤ (Laws.opNumber i).toNat ∧ (Laws.opNumber i).toNat ≤ 6 ∧
      ((Laws.opNumber i).toNat ≠ 6 → (Laws.lenOperand i).toNat = 0) := by
  cases i with
  | beWrite len => simp [Laws.opNumber]
  | _ => decide

/-- A word that fails a check of R81, read on its fields as numbers, is no command's word. -/
theorem decode_of_rejected {w : CmdWord}
    (h : w.toNat / 256 ≠ 0 ∨ w.toNat % 16 = 0 ∨ 7 ≤ w.toNat % 16 ∨
      (w.toNat % 16 ≠ 6 ∧ w.toNat / 16 % 16 ≠ 0) ∨ (w.toNat % 16 = 6 ∧ 8 < w.toNat / 16 % 16)) :
    ∃ e, decode w = .error e := by
  cases hd : decode w with
  | error e => exact ⟨e, rfl⟩
  | ok i =>
    obtain ⟨hwf, rfl⟩ := encode_of_decode hd
    rw [wellFormed_iff] at hwf
    rw [encode_toNat] at h
    have := opNumber_lenOperand_bounds i
    omega

/-- The commands the core has, be_write with each of its byte counts. -/
def commands : List Instr :=
  [.encodeUint64, .decodeUint64, .encodeBytes, .decodeBytes, .beRead, .beWrite 0#4, .beWrite 1#4, .beWrite 2#4,
    .beWrite 3#4, .beWrite 4#4, .beWrite 5#4, .beWrite 6#4, .beWrite 7#4, .beWrite 8#4]

theorem mem_commands_iff (i : Instr) : i ∈ commands ↔ i.wellFormed = true := by
  cases i with
  | beWrite len => revert len; decide
  | _ => decide

/-- The words that select commands are the words of the commands. -/
theorem decode_isOk_iff_mem (w : CmdWord) : (∃ i, decode w = .ok i) ↔ w ∈ commands.map encode := by
  simp only [List.mem_map, mem_commands_iff]
  refine exists_congr fun i => ⟨encode_of_decode, fun h => ?_⟩
  obtain ⟨hwf, rfl⟩ := h
  exact decode_encode hwf

theorem wellFormed_beWrite {n : Nat} (h : n ≤ 8) : (Instr.beWrite (BitVec.ofNat 4 n)).wellFormed = true := by
  rw [wellFormed_iff]
  exact (Nat.mod_le n 16).trans h

/-- Settles O5: the accepted words are exactly the commands' own, so a word that fails a check of R81 decodes
to no command and aborts, and the 14 words run their commands. -/
theorem commandWordsAreCheckedFirst : Obligations.CommandWordsAreCheckedFirst := by
  refine ⟨fun s w => ⟨fun h => ?rejected, fun h => writeCmd_of_toNat rfl h s,
    fun h => writeCmd_of_toNat rfl h s, fun h => writeCmd_of_toNat rfl h s, fun h => writeCmd_of_toNat rfl h s,
    fun h => writeCmd_of_toNat rfl h s, fun n hn h => ?beWrite⟩, decode_isOk_iff_mem⟩
  case rejected =>
    obtain ⟨e, he⟩ := decode_of_rejected h
    exact ⟨_, writeCmd_of_error he s⟩
  case beWrite =>
    refine writeCmd_of_toNat (wellFormed_beWrite hn) ?_ s
    rw [h, encode_toNat]
    change 6 + 16 * n = 6 + 16 * (n % 16)
    omega

/-! ### The pseudo-instructions (R87) -/

/-- The two steps of a write statement and a command on an idle core; `t` is what the write leaves, the pending
moves aside. -/
theorem run_write_then_command {s t : State} {wr : Stmt} {i : Instr} (hs : s.work = none) (hm : s.moves = [])
    (ht : t.work = none) (htm : t.moves = []) (hi : i.wellFormed = true)
    (hwrite : ∀ ms, hostMove (stmtMove wr) { s with moves := ms } = .next { t with moves := ms }) :
    ∃ c, core.run 2 (loadStatements [wr, .cmd i] s) = exec i { t with cmd := c } := by
  have hload : (loadStatements [wr, .cmd i] s).moves = [stmtMove wr, .writeCmd (encode i)] := by
    simp [loadStatements, hm, stmtMove]
  have hfirst : step (loadStatements [wr, .cmd i] s) = .next { t with moves := [.writeCmd (encode i)] } :=
    (step_of_move (s := loadStatements [wr, .cmd i] s) hs hload).trans (hwrite _)
  have hidle : ({ t with moves := [] } : State) = t := by rw [← htm]
  have hsecond : step { t with moves := [.writeCmd (encode i)] } = writeCmd (encode i) t :=
    (step_of_move (s := { t with moves := [.writeCmd (encode i)] }) ht rfl).trans
      (congrArg (writeCmd (encode i)) hidle)
  have hrun := (core_run_of_next 1 hfirst).trans (core_run_one _)
  exact ⟨_, hrun.trans (hsecond.trans (writeCmd_encode hi t))⟩

/-- A write of TEXT_IN within capacity. -/
theorem writeTextIn_of_le {t : Text} (h : t.length ≤ Config.maxInChars) (s : State) :
    writeTextIn t s = .next { s with textIn := some t } :=
  if_pos h

/-- A write of BYTES_IN within capacity. -/
theorem writeBytesIn_of_le {b : Bytes} (h : b.length ≤ Config.maxInBytes) (s : State) :
    writeBytesIn b s = .next { s with bytesIn := some b } :=
  if_pos h

/-- Settles O53: each expansion is a host write of the operand, which completes within capacity, and then the
command's own word. -/
theorem pseudoInstructionsWriteThenCommand : Obligations.PseudoInstructionsWriteThenCommand := by
  intro s hs hm
  refine ⟨fun v => ?_, fun t ht => ?_, fun b hb => ?_, fun t ht => ?_, fun b hb => ?_, fun v n hn => ?_⟩
  · exact run_write_then_command (t := { s with valueIn := some v }) hs hm hs hm rfl fun _ => rfl
  · exact run_write_then_command (t := { s with textIn := some t }) hs hm hs hm rfl
      fun _ => writeTextIn_of_le ht _
  · exact run_write_then_command (t := { s with bytesIn := some b }) hs hm hs hm rfl
      fun _ => writeBytesIn_of_le hb _
  · exact run_write_then_command (t := { s with textIn := some t }) hs hm hs hm rfl
      fun _ => writeTextIn_of_le ht _
  · exact run_write_then_command (t := { s with bytesIn := some b }) hs hm hs hm rfl
      fun _ => writeBytesIn_of_le hb _
  · exact run_write_then_command (t := { s with valueIn := some v }) hs hm hs hm (wellFormed_beWrite hn)
      fun _ => rfl

end Sys2Proof.Machine
end

section
/-! The family 40_integer_codec: the decoder's loop and its errors (R110 to R116), the encoder's places (R100 to
R107), and the stepped readings of both commands (R108, R118). -/

namespace Sys2Proof.Machine

/-! ### One symbol of the decoder (R112 to R115) -/

/-- A symbol passes exactly when it is in the alphabet and the exact sum fits; that sum is the new accumulator. -/
theorem decodeSymbol_eq_ok_iff {order : Config.SymbolOrder} {acc a : U64} {c : CharCode} :
    decodeSymbol order acc c = .ok a ↔ ∃ d, val c = some d ∧ a.toNat = acc.toNat * 62 + d := by
  unfold decodeSymbol
  cases val c with
  | none => simp only [reduceCtorEq, false_and, exists_false, iff_false]; split <;> simp
  | some d =>
    simp only [Option.some.injEq, exists_eq_left', Config.maxU64, Config.radix]
    have := a.isLt
    split
    · simp only [reduceCtorEq, false_iff]; omega
    · rw [Except.ok.injEq, ← BitVec.toNat_inj, BitVec.toNat_ofNat]; omega

/-- The InvalidCharacter of R113. -/
theorem decodeSymbol_of_invalid (order : Config.SymbolOrder) {acc : U64} {c : CharCode} (hc : val c = none)
    (hacc : acc.toNat * 62 ≤ Config.maxU64) : decodeSymbol order acc c = .error .invalidCharacter := by
  rw [decodeSymbol, hc]; exact if_neg (Nat.not_lt.mpr hacc)

/-- A symbol that fails both checks of R115. -/
theorem decodeSymbol_of_both_fail (order : Config.SymbolOrder) {acc : U64} {c : CharCode} (hc : val c = none)
    (hacc : Config.maxU64 < acc.toNat * 62) : decodeSymbol order acc c = .error (sameSymbolError order) := by
  rw [decodeSymbol, hc]; exact if_pos hacc

/-- Any other symbol does not ask for the order of the checks (R115). -/
theorem decodeSymbol_order_irrelevant {acc : U64} {c : CharCode}
    (h : ¬ (val c = none ∧ Config.maxU64 < acc.toNat * 62)) :
    decodeSymbol .invalidFirst acc c = decodeSymbol .overflowFirst acc c := by
  cases hc : val c with
  | none =>
    have hacc : acc.toNat * 62 ≤ Config.maxU64 := Nat.not_lt.mp fun hlt => h ⟨hc, hlt⟩
    rw [decodeSymbol_of_invalid _ hc hacc, decodeSymbol_of_invalid _ hc hacc]
  | some d => simp only [decodeSymbol, hc]

/-! ### The decoder's loop (R110, R112) -/

theorem decodeFrom_cons_of_ok {order : Config.SymbolOrder} {acc a : U64} {c : CharCode} (t : Text)
    (h : decodeSymbol order acc c = .ok a) : decodeFrom order acc (c :: t) = decodeFrom order a t := by
  simp only [decodeFrom, h]

theorem decodeFrom_cons_of_error {order : Config.SymbolOrder} {acc : U64} {c : CharCode} {e : CommandError}
    (t : Text) (h : decodeSymbol order acc c = .error e) : decodeFrom order acc (c :: t) = .error e := by
  simp only [decodeFrom, h]

theorem decodeFrom_cons_eq_ok_iff {order : Config.SymbolOrder} {acc a : U64} {c : CharCode} {t : Text} :
    decodeFrom order acc (c :: t) = .ok a ↔
      ∃ b, decodeSymbol order acc c = .ok b ∧ decodeFrom order b t = .ok a := by
  cases h : decodeSymbol order acc c with
  | error e => simp [decodeFrom_cons_of_error t h]
  | ok b => simp [decodeFrom_cons_of_ok t h]

theorem inAlphabet_cons (c : CharCode) (t : Text) :
    inAlphabet (c :: t) = true ↔ (val c).isSome = true ∧ inAlphabet t = true := by
  simp [inAlphabet]

/-- The loop passes exactly the alphabet texts whose value, behind the accumulator's, fits; that value is
what it gives. -/
theorem decodeFrom_eq_ok_iff {order : Config.SymbolOrder} {acc a : U64} {t : Text} :
    decodeFrom order acc t = .ok a ↔
      inAlphabet t = true ∧ a.toNat = acc.toNat * 62 ^ t.length + textValue t := by
  induction t generalizing acc with
  | nil => simp [decodeFrom, inAlphabet, textValue_nil, ← BitVec.toNat_inj, eq_comm]
  | cons c t ih =>
    simp only [decodeFrom_cons_eq_ok_iff, decodeSymbol_eq_ok_iff, ih, inAlphabet_cons, textValue_cons,
      List.length_cons, Option.isSome_iff_exists]
    constructor
    · rintro ⟨b, ⟨d, hd, hb⟩, ht, ha⟩
      exact ⟨⟨⟨d, hd⟩, ht⟩, by rw [ha, hb, hd, Option.getD_some]; ring⟩
    · rintro ⟨⟨⟨d, hd⟩, ht⟩, ha⟩
      have hsum : a.toNat = (acc.toNat * 62 + d) * 62 ^ t.length + textValue t := by
        rw [ha, hd, Option.getD_some]; ring
      have hle : acc.toNat * 62 + d ≤ (acc.toNat * 62 + d) * 62 ^ t.length :=
        Nat.le_mul_of_pos_right _ (by positivity)
      have hb : (BitVec.ofNat 64 (acc.toNat * 62 + d)).toNat = acc.toNat * 62 + d := by
        have := a.isLt
        rw [BitVec.toNat_ofNat, Nat.mod_eq_of_lt (by omega)]
      exact ⟨_, ⟨d, hd, hb⟩, ht, by rw [hb]; exact hsum⟩

theorem toNat_ofNat_of_fits {n : Nat} (h : n ≤ Config.maxU64) : (BitVec.ofNat 64 n).toNat = n := by
  rw [BitVec.toNat_ofNat, Nat.mod_eq_of_lt (Nat.lt_succ_of_le h)]

/-- R112 from the start of a text. -/
theorem decodeFrom_zero_of_fits (order : Config.SymbolOrder) {t : Text} (ht : inAlphabet t = true)
    (hv : textValue t ≤ Config.maxU64) : decodeFrom order 0#64 t = .ok (BitVec.ofNat 64 (textValue t)) :=
  decodeFrom_eq_ok_iff.mpr ⟨ht, by simp [toNat_ofNat_of_fits hv]⟩

theorem dec_of_ne_nil (order : Config.SymbolOrder) {t : Text} (h : t ≠ []) :
    dec order t = decodeFrom order 0#64 t :=
  if_neg h

/-- DEC after symbols that pass. -/
theorem dec_append_cons {order : Config.SymbolOrder} {p : Text} {acc : U64}
    (hp : decodeFrom order 0#64 p = .ok acc) (c : CharCode) (r : Text) :
    dec order (p ++ c :: r) = decodeFrom order acc (c :: r) := by
  rw [dec_of_ne_nil order (by simp), decodeFrom_append, hp]

theorem dec_of_fits (order : Config.SymbolOrder) {t : Text} (hne : t ≠ []) (ht : inAlphabet t = true)
    (hv : textValue t ≤ Config.maxU64) : dec order t = .ok (BitVec.ofNat 64 (textValue t)) :=
  (dec_of_ne_nil order hne).trans (decodeFrom_zero_of_fits order ht hv)

/-! ### Texts whose value fits -/

/-- The first `i` symbols of a text of the alphabet are one too, of no larger value. -/
theorem take_fits {t : Text} (ht : inAlphabet t = true) (i : Nat) :
    inAlphabet (t.take i) = true ∧ textValue (t.take i) ≤ textValue t := by
  have hsplit := List.take_append_drop i t
  constructor
  · rw [← hsplit, inAlphabet_append, Bool.and_eq_true] at ht
    exact ht.1
  · have hle : textValue (t.take i) ≤ textValue (t.take i) * 62 ^ (t.drop i).length :=
      Nat.le_mul_of_pos_right _ (by positivity)
    have hsum := textValue_append (t.take i) (t.drop i)
    rw [hsplit] at hsum
    omega

/-- Settles O17: the loop passes a text that fits and its first symbols, each with the value read so far. -/
theorem decodeUint64ReturnsTheValue : Obligations.DecodeUint64ReturnsTheValue := by
  intro s t hs hne ht hv
  refine ⟨?_, fun i _ => ?_⟩
  · rw [exec_decodeUint64 hs, dec_of_fits _ hne ht hv]; rfl
  · obtain ⟨hp, hle⟩ := take_fits ht i
    exact decodeFrom_zero_of_fits _ hp (hle.trans hv)

/-! ### The decoder's errors (R111, R113, R115) -/

section InvalidSymbol

variable {p : Text} {c : CharCode} (hp : inAlphabet p = true) (hv : textValue p ≤ Config.maxU64) (hc : val c = none)
include hp hv hc

theorem dec_of_invalid (order : Config.SymbolOrder) (r : Text) (hacc : textValue p * 62 ≤ Config.maxU64) :
    dec order (p ++ c :: r) = .error .invalidCharacter := by
  rw [dec_append_cons (decodeFrom_zero_of_fits order hp hv)]
  exact decodeFrom_cons_of_error r (decodeSymbol_of_invalid order hc (by rwa [toNat_ofNat_of_fits hv]))

theorem dec_of_both_fail (order : Config.SymbolOrder) (r : Text) (hacc : Config.maxU64 < textValue p * 62) :
    dec order (p ++ c :: r) = .error (sameSymbolError order) := by
  rw [dec_append_cons (decodeFrom_zero_of_fits order hp hv)]
  exact decodeFrom_cons_of_error r (decodeSymbol_of_both_fail order hc (by rwa [toNat_ofNat_of_fits hv]))

end InvalidSymbol

/-- A text of one symbol is its digit. -/
theorem textValue_singleton {c : CharCode} {d : Nat} (h : val c = some d) : textValue [c] = d := by
  simp [textValue_cons, textValue_nil, h]

/-- Settles O18: the empty test comes first, one symbol is a text that fits, and a symbol outside the alphabet
ends the loop, with the error of R115 where the multiply fails as well. -/
theorem decodeUint64RejectsEmptyAndInvalidTexts : Obligations.DecodeUint64RejectsEmptyAndInvalidTexts := by
  refine ⟨fun s hs => ?_, fun s c d hs hd => ?_, fun s p c r hs hp hv hc => ⟨fun hacc => ?_, fun hacc => ?_⟩⟩
  · rw [exec_decodeUint64 hs]; rfl
  · have hle : d ≤ 61 := le_of_alphabet (alphabet_of_val hd)
    have hval := textValue_singleton hd
    rw [exec_decodeUint64 hs, dec_of_fits _ (by simp) (by simp [inAlphabet, hd])
      (by rw [hval]; exact hle.trans (by decide)), hval]
    rfl
  · rw [exec_decodeUint64 hs, dec_of_invalid hp hv hc _ r hacc]; rfl
  · rw [exec_decodeUint64 hs, dec_of_both_fail hp hv hc _ r hacc]
    cases Config.sameSymbolOrder <;> rfl

/-- Where the two orders differ, some symbol after ones that pass fails both checks. -/
theorem exists_both_fail_of_ne {acc : U64} {t : Text}
    (h : decodeFrom .invalidFirst acc t ≠ decodeFrom .overflowFirst acc t) :
    ∃ p c r a, t = p ++ c :: r ∧ decodeFrom .invalidFirst acc p = .ok a ∧ val c = none ∧
      Config.maxU64 < a.toNat * 62 := by
  induction t generalizing acc with
  | nil => exact absurd rfl h
  | cons c t ih =>
    by_cases hboth : val c = none ∧ Config.maxU64 < acc.toNat * 62
    · exact ⟨[], c, t, acc, rfl, rfl, hboth⟩
    · have hsame := decodeSymbol_order_irrelevant hboth
      cases hsym : decodeSymbol .overflowFirst acc c with
      | error e =>
        rw [decodeFrom_cons_of_error t hsym, decodeFrom_cons_of_error t (hsame.trans hsym)] at h
        exact absurd rfl h
      | ok b =>
        rw [decodeFrom_cons_of_ok t hsym, decodeFrom_cons_of_ok t (hsame.trans hsym)] at h
        obtain ⟨p, c', r, a, rfl, hp, hrest⟩ := ih h
        exact ⟨c :: p, c', r, a, rfl, (decodeFrom_cons_of_ok p (hsame.trans hsym)).trans hp, hrest⟩

/-- The same of DEC, in the terms of R115. -/
theorem exists_both_fail_of_dec_ne {t : Text} (h : dec .invalidFirst t ≠ dec .overflowFirst t) :
    ∃ p c r, t = p ++ c :: r ∧ inAlphabet p = true ∧ textValue p ≤ Config.maxU64 ∧ val c = none ∧
      Config.maxU64 < textValue p * 62 := by
  have hne : t ≠ [] := by rintro rfl; exact h rfl
  rw [dec_of_ne_nil _ hne, dec_of_ne_nil _ hne] at h
  obtain ⟨p, c, r, a, ht, hpass, hc, hacc⟩ := exists_both_fail_of_ne h
  obtain ⟨hp, ha⟩ := decodeFrom_eq_ok_iff.mp hpass
  have hval : a.toNat = textValue p := by simpa using ha
  exact ⟨p, c, r, ht, hp, hval ▸ Nat.le_of_lt_succ a.isLt, hc, hval ▸ hacc⟩

/-- Settles O20: only a symbol that fails both checks asks for the order, and there each order gives the error of
the check it applies first. -/
theorem sameSymbolOrderShowsOnlyThere : Obligations.SameSymbolOrderShowsOnlyThere := by
  refine fun t => ⟨⟨exists_both_fail_of_dec_ne, ?_⟩, fun h => ?_⟩
  · rintro ⟨p, c, r, rfl, hp, hv, hc, hacc⟩
    rw [dec_of_both_fail hp hv hc _ r hacc, dec_of_both_fail hp hv hc _ r hacc]
    decide
  · obtain ⟨p, c, r, rfl, hp, hv, hc, hacc⟩ := exists_both_fail_of_dec_ne h
    exact ⟨dec_of_both_fail hp hv hc _ r hacc, dec_of_both_fail hp hv hc _ r hacc⟩

/-! ### The encoder's places (R100 to R106) -/

/-- The encoder's working state for `v` with `m` places left: the remainder is the value of the low `m` places,
and the places above them stand in OUT, without a leading zero symbol. -/
structure PlacesLeft (v : U64) (m : Nat) (w : IntEncoderWork) : Prop where
  k_eq : w.k = m - 1
  rem_eq : w.rem.toNat = v.toNat % 62 ^ m
  started_eq : w.started = (v.toNat / 62 ^ m != 0)
  out_inAlphabet : inAlphabet w.out = true
  out_value : textValue w.out = v.toNat / 62 ^ m
  out_head : w.out.head? ≠ some (sym 0)

theorem placesLeft_encodeStart (v : U64) : PlacesLeft v Config.maxIntSymbols (encodeStart v) := by
  have hlt : v.toNat < 62 ^ 11 := v.isLt.trans (by norm_num)
  have hhigh : v.toNat / 62 ^ 11 = 0 := Nat.div_eq_of_lt hlt
  exact ⟨rfl, (Nat.mod_eq_of_lt hlt).symm, by rw [hhigh]; rfl, rfl, hhigh.symm, by simp [encodeStart]⟩

theorem sym_ne_zero {q : Nat} (hq : q ≤ 61) (h0 : q ≠ 0) : sym q ≠ sym 0 := by
  intro h
  have := val_sym q hq
  rw [h, val_sym 0 (by omega)] at this
  exact h0 (Option.some.inj this).symm

/-- A digit appended to a text of the alphabet. -/
theorem inAlphabet_append_sym {t : Text} {q : Nat} (ht : inAlphabet t = true) (hq : q ≤ 61) :
    inAlphabet (t ++ [sym q]) = true := by
  rw [inAlphabet_append, ht]
  simp [inAlphabet, val_sym q hq]

theorem textValue_append_sym (t : Text) {q : Nat} (hq : q ≤ 61) :
    textValue (t ++ [sym q]) = textValue t * 62 + q := by
  rw [textValue_append, textValue_singleton (val_sym q hq)]; rfl

/-- A digit that is nonzero or has a nonzero value before it puts no zero symbol in front. -/
theorem head?_append_sym {t : Text} {q : Nat} (hhead : t.head? ≠ some (sym 0)) (hq : q ≤ 61)
    (hpos : textValue t ≠ 0 ∨ q ≠ 0) : (t ++ [sym q]).head? ≠ some (sym 0) := by
  cases t with
  | nil =>
    have h0 : q ≠ 0 := hpos.resolve_left (fun h => h rfl)
    simpa using sym_ne_zero hq h0
  | cons c t => exact hhead

/-- The remainder after a place (R105). -/
theorem placeStep_rem_toNat (w : IntEncoderWork) :
    (placeStep w).rem.toNat = w.rem.toNat % placeValue w.k := by
  have hmod : w.rem.toNat - w.rem.toNat / placeValue w.k * placeValue w.k = w.rem.toNat % placeValue w.k :=
    Nat.mod_eq_sub_div_mul.symm
  have hle := Nat.mod_le w.rem.toNat (placeValue w.k)
  simp only [placeStep, hmod]
  exact toNat_ofNat_of_fits (hle.trans (Nat.le_of_lt_succ w.rem.isLt))

/-- STARTED after a place (R104). -/
theorem placeStep_started (w : IntEncoderWork) :
    (placeStep w).started = startedAfter w.started (w.rem.toNat / placeValue w.k) := rfl

/-- OUT after a place: its digit is emitted exactly when STARTED is set (R103, R104). -/
theorem placeStep_out (w : IntEncoderWork) :
    (placeStep w).out =
      if (placeStep w).started then w.out ++ [sym (w.rem.toNat / placeValue w.k)] else w.out := rfl

/-- One place: its digit is the next base-62 digit of the value (R103), STARTED and OUT take it (R104), and the
remainder loses it (R105). -/
theorem placesLeft_placeStep {v : U64} {m : Nat} {w : IntEncoderWork} (h : PlacesLeft v (m + 1) w) :
    PlacesLeft v m (placeStep w) := by
  obtain ⟨hk, hrem, hstarted, halpha, hvalue, hhead⟩ := h
  have hpv : placeValue w.k = 62 ^ m := by rw [hk]; rfl
  have hdigit : w.rem.toNat / placeValue w.k = v.toNat / 62 ^ m % 62 := by
    rw [hrem, hpv, pow_succ, Nat.mod_mul_right_div_self]
  have hdiv : v.toNat / 62 ^ (m + 1) = v.toNat / 62 ^ m / 62 := by rw [pow_succ, Nat.div_div_eq_div_mul]
  have hle : v.toNat / 62 ^ m % 62 ≤ 61 := by omega
  have hk' : (placeStep w).k = m - 1 := by rw [placeStep_k, hk]; rfl
  have hrem' : (placeStep w).rem.toNat = v.toNat % 62 ^ m := by
    rw [placeStep_rem_toNat, hpv, hrem, pow_succ, Nat.mod_mul_right_mod]
  have hstarted' : (placeStep w).started = (v.toNat / 62 ^ m != 0) := by
    rw [placeStep_started, hdigit, startedAfter, hstarted, hdiv, Bool.eq_iff_iff]
    simp only [Bool.or_eq_true, bne_iff_ne]
    omega
  have hout := placeStep_out w
  rw [hstarted', hdigit] at hout
  rw [hdiv] at hvalue
  by_cases hzero : v.toNat / 62 ^ m = 0
  · rw [if_neg (by simp [hzero])] at hout
    exact ⟨hk', hrem', hstarted', by rwa [hout], by rw [hout, hvalue]; omega, by rwa [hout]⟩
  · rw [if_pos (by simp [hzero])] at hout
    exact ⟨hk', hrem', hstarted', by rw [hout]; exact inAlphabet_append_sym halpha hle,
      by rw [hout, textValue_append_sym _ hle, hvalue]; omega,
      by rw [hout]; exact head?_append_sym hhead hle (by omega)⟩

theorem placesLeft_runPlaces {v : U64} {m n : Nat} {w : IntEncoderWork} (h : PlacesLeft v (m + n) w) :
    PlacesLeft v m (runPlaces n w) := by
  induction n generalizing w with
  | zero => exact h
  | succ n ih => exact ih (placesLeft_placeStep h)

/-- The working state after `j` of the 11 places. -/
theorem placesLeft_after (v : U64) {j : Nat} (hj : j ≤ 11) :
    PlacesLeft v (11 - j) (runPlaces j (encodeStart v)) :=
  placesLeft_runPlaces (by rw [Nat.sub_add_cancel hj]; exact placesLeft_encodeStart v)

/-! ### ENC (R100, R106, R107) -/

theorem enc_zero : enc 0#64 = [0x30#8] := rfl

theorem enc_of_ne_zero {v : U64} (h : v ≠ 0#64) : enc v = (runPlaces 11 (encodeStart v)).out :=
  if_neg h

/-- ENC of a nonzero value has no leading zero symbol. -/
theorem enc_head? {v : U64} (h : v ≠ 0#64) : (enc v).head? ≠ some 0x30#8 := by
  rw [enc_of_ne_zero h]; exact (placesLeft_after v (le_refl 11)).out_head

theorem inAlphabet_enc (v : U64) : inAlphabet (enc v) = true := by
  by_cases h : v = 0#64
  · rw [h]; rfl
  · rw [enc_of_ne_zero h]; exact (placesLeft_after v (le_refl 11)).out_inAlphabet

theorem textValue_enc (v : U64) : textValue (enc v) = v.toNat := by
  by_cases h : v = 0#64
  · rw [h]; rfl
  · rw [enc_of_ne_zero h, (placesLeft_after v (le_refl 11)).out_value]; simp

theorem enc_ne_nil (v : U64) : enc v ≠ [] := by
  by_cases h : v = 0#64
  · rw [h, enc_zero]; simp
  · intro hnil
    have hvalue := textValue_enc v
    rw [hnil] at hvalue
    exact h (BitVec.eq_of_toNat_eq hvalue.symm)

/-- R107 of the functions. -/
theorem dec_enc (order : Config.SymbolOrder) (v : U64) : dec order (enc v) = .ok v := by
  have hfits : textValue (enc v) ≤ Config.maxU64 := by rw [textValue_enc]; exact Nat.le_of_lt_succ v.isLt
  rw [dec_of_fits order (enc_ne_nil v) (inAlphabet_enc v) hfits, textValue_enc, BitVec.ofNat_toNat,
    BitVec.setWidth_eq]

/-- Settles O22: TEXT_OUT holds ENC's text, and DEC inverts ENC. -/
theorem integerRoundTrip : Obligations.IntegerRoundTrip := by
  intro s s1 v hs h
  rw [exec_encodeUint64 hs] at h
  cases h
  refine ⟨enc v, rfl, fun h0 => by rw [h0, enc_zero], enc_head?, ?_⟩
  rw [exec_decodeUint64 (t := enc v) rfl, dec_enc]
  rfl

/-! ### Steps of a command in progress -/

/-- One step at a core with a command in progress. -/
theorem microFinish_one {s : State} {w : Work} (h : s.work = some w) : microFinish 1 s = advance w s := by
  cases ha : advance w s <;> simp [microFinish, h, ha]

/-- A run goes on from the state it has come to. -/
theorem microFinish_add {m : Nat} {s t : State} (h : microFinish m s = .next t) (n : Nat) :
    microFinish (m + n) s = microFinish n t := by
  induction m generalizing s with
  | zero => cases h; rw [Nat.zero_add]
  | succ m ih =>
    cases hw : s.work with
    | none =>
      rw [microFinish_of_idle _ hw] at h
      cases h
      rw [microFinish_of_idle _ hw, microFinish_of_idle _ hw]
    | some w =>
      rw [Nat.succ_add]
      simp only [microFinish, hw] at h ⊢
      cases ha : advance w s with
      | next s' => rw [ha] at h; exact ih h
      | fault f => rw [ha] at h; cases h
      | refused r => rw [ha] at h; cases h

/-- A run that has come to a working state takes one more step. -/
theorem microFinish_succ {n : Nat} {s t : State} {w : Work}
    (h : microFinish n s = .next { t with work := some w }) :
    microFinish (n + 1) s = advance w { t with work := some w } :=
  (microFinish_add h 1).trans (microFinish_one rfl)

/-- A command's end does not depend on the working state it leaves. -/
theorem finishValue_of_work (r : Except CommandError U64) (s : State) (w : Option Work) :
    finishValue r { s with work := w } = finishValue r s := by
  cases r <;> rfl

/-! ### The stepped encoder (R108) -/

theorem advance_encodeZeroTest_of_ne_zero {s : State} {v : U64} (hs : s.valueIn = some v) (hv : v ≠ 0#64) :
    advance .encodeZeroTest s = .next { s with work := some (.encodePlaces (encodeStart v)) } := by
  rw [advance, withValueIn_of_eq hs, if_neg hv, keepWork_eq]

/-- After the zero test and `j` places. -/
theorem microFinish_encodePlaces {s : State} {v : U64} (hs : s.valueIn = some v) (hv : v ≠ 0#64) {j : Nat}
    (hj : j ≤ 10) : microFinish (j + 1) { s with work := some .encodeZeroTest } =
      .next { s with work := some (.encodePlaces (runPlaces j (encodeStart v))) } := by
  induction j with
  | zero => exact (microFinish_one rfl).trans (advance_encodeZeroTest_of_ne_zero hs hv)
  | succ j ih =>
    have hk : (runPlaces j (encodeStart v)).k ≠ 0 := by
      rw [(placesLeft_after v (by omega)).k_eq]; omega
    rw [microFinish_succ (ih (by omega)), advance, advancePlace, if_neg hk, keepWork_eq, runPlaces_succ]

/-- Settles O46: each place but the last leaves the loop body's working state, and the step at k = 0 completes with
the text of all 11 places. -/
theorem steppedEncodeTakesElevenPlaces : Obligations.SteppedEncodeTakesElevenPlaces := by
  intro s v hs
  refine ⟨fun h0 => ?_, fun hv => ⟨fun j hj => microFinish_encodePlaces hs hv hj, ?_⟩⟩
  · rw [exec_encodeUint64 hs, advance, withValueIn_of_eq hs, if_pos h0, h0]
    rfl
  · have hk : (runPlaces 10 (encodeStart v)).k = 0 := (placesLeft_after v (by omega)).k_eq
    rw [microFinish_succ (microFinish_encodePlaces hs hv (le_refl 10)), advance, advancePlace, if_pos hk,
      ← runPlaces_succ, exec_encodeUint64 hs, enc_of_ne_zero hv]
    rfl

/-! ### The stepped decoder (R118) -/

/-- A symbol that passes and is not the last. -/
theorem advanceSymbol_of_more {t : Text} {i : Nat} {c : CharCode} {rest : Text} {acc a : U64}
    (hdrop : t.drop i = c :: rest) (hrest : rest ≠ [])
    (hsym : decodeSymbol Config.sameSymbolOrder acc c = .ok a) (s : State) :
    advanceSymbol t { acc := acc, i := i } s =
      .next { s with work := some (.decodeSymbols { acc := a, i := i + 1 }) } := by
  simp only [advanceSymbol, hdrop, hsym, if_neg hrest, keepWork_eq]

/-- The last symbol, or one that fails, ends the command with the loop's result. -/
theorem advanceSymbol_of_end {t : Text} {i : Nat} {c : CharCode} {rest : Text} {acc : U64}
    (hdrop : t.drop i = c :: rest)
    (hend : rest = [] ∨ ∃ e, decodeSymbol Config.sameSymbolOrder acc c = .error e) (s : State) :
    advanceSymbol t { acc := acc, i := i } s =
      finishValue (decodeFrom Config.sameSymbolOrder acc (c :: rest)) s := by
  cases hsym : decodeSymbol Config.sameSymbolOrder acc c with
  | error e => simp only [advanceSymbol, hdrop, hsym, decodeFrom_cons_of_error rest hsym, finishValue]
  | ok a =>
    have hrest : rest = [] := hend.resolve_right (by simp [hsym])
    simp only [advanceSymbol, hdrop, hsym, hrest, if_pos, decodeFrom, finishValue]

/-- The loop over one symbol more passes only where the loop up to it and the symbol do. -/
theorem decodeFrom_concat_eq_ok {order : Config.SymbolOrder} {acc a : U64} {p : Text} {c : CharCode}
    (h : decodeFrom order acc (p ++ [c]) = .ok a) :
    ∃ b, decodeFrom order acc p = .ok b ∧ decodeSymbol order b c = .ok a := by
  rw [decodeFrom_append] at h
  cases hp : decodeFrom order acc p with
  | error e => rw [hp] at h; cases h
  | ok b =>
    rw [hp] at h
    obtain ⟨a', hsym, ha⟩ := decodeFrom_cons_eq_ok_iff.mp h
    cases ha
    exact ⟨b, rfl, hsym⟩

theorem advance_decodeEmptyTest_of_ne_nil {s : State} {t : Text} (hs : s.textIn = some t) (ht : t ≠ []) :
    advance .decodeEmptyTest s = .next { s with work := some (.decodeSymbols { acc := 0#64, i := 0 }) } := by
  rw [advance, withTextIn_of_eq hs, if_neg ht, keepWork_eq]

theorem advance_decodeSymbols {s : State} {t : Text} (hs : s.textIn = some t) (d : IntDecoderWork)
    (w : Option Work) :
    advance (.decodeSymbols d) { s with work := w } = advanceSymbol t d { s with work := w } :=
  withTextIn_of_eq (s := { s with work := w }) hs _

/-- After the empty test and `i` symbols that pass, before one that is there. -/
theorem microFinish_decodeSymbols {s : State} {t : Text} (hs : s.textIn = some t) {i : Nat} {acc : U64}
    (hi : i < t.length) (hpass : decodeFrom Config.sameSymbolOrder 0#64 (t.take i) = .ok acc) :
    microFinish (i + 1) { s with work := some .decodeEmptyTest } =
      .next { s with work := some (.decodeSymbols { acc := acc, i := i }) } := by
  induction i generalizing acc with
  | zero =>
    cases hpass
    exact (microFinish_one rfl).trans (advance_decodeEmptyTest_of_ne_nil hs (List.length_pos_iff.mp hi))
  | succ i ih =>
    rw [List.take_add_one, List.getElem?_eq_getElem (by omega), Option.toList_some] at hpass
    obtain ⟨b, hbefore, hsym⟩ := decodeFrom_concat_eq_ok hpass
    have hdrop : t.drop i = t[i] :: t.drop (i + 1) := List.drop_eq_getElem_cons (by omega)
    have hmore : t.drop (i + 1) ≠ [] := fun h => by have := List.drop_eq_nil_iff.mp h; omega
    rw [microFinish_succ (ih (by omega) hbefore), advance_decodeSymbols hs,
      advanceSymbol_of_more hdrop hmore hsym]

/-- Settles O47: each symbol that passes leaves the loop's accumulator and the next index, and the step at the last
symbol or at the first error ends with what DEC has left to give. -/
theorem steppedDecodeTakesOneStepASymbol : Obligations.SteppedDecodeTakesOneStepASymbol := by
  refine fun s t hs => ⟨fun ht => ?_, fun i acc c hc hpass => ?_⟩
  · rw [exec_decodeUint64 hs, advance, withTextIn_of_eq hs, if_pos ht, ht]
    rfl
  · obtain ⟨hi, rfl⟩ := List.getElem?_eq_some_iff.mp hc
    have hdrop := List.drop_eq_getElem_cons hi
    have hreach := microFinish_decodeSymbols hs hi hpass
    refine ⟨hreach, fun hend => ?_⟩
    have hend' : t.drop (i + 1) = [] ∨ ∃ e, decodeSymbol Config.sameSymbolOrder acc t[i] = .error e :=
      hend.imp_left fun h => List.drop_eq_nil_iff.mpr h.ge
    have hdec : dec Config.sameSymbolOrder t =
        decodeFrom Config.sameSymbolOrder acc (t[i] :: t.drop (i + 1)) := by
      rw [← dec_append_cons hpass, ← hdrop, List.take_append_drop]
    rw [microFinish_succ hreach, advance_decodeSymbols hs, advanceSymbol_of_end hdrop hend',
      finishValue_of_work, exec_decodeUint64 hs, hdec]

end Sys2Proof.Machine
end

section
/-! The family 41_byte_codec: the texts of encode_bytes (R140 to R145), the window scan of decode_bytes (R150 to
R156), the round trip (R158) and the stepped readings of both commands (R160). -/

namespace Sys2Proof.Machine

/-! ### Lengths of encoded values -/

theorem placeStep_out_length_le (w : IntEncoderWork) : (placeStep w).out.length ≤ w.out.length + 1 := by
  rw [placeStep_out]
  split
  · simp
  · omega

theorem runPlaces_out_length_le (n : Nat) (w : IntEncoderWork) :
    (runPlaces n w).out.length ≤ w.out.length + n := by
  induction n with
  | zero => exact le_refl _
  | succ n ih =>
    rw [runPlaces_succ]
    have := placeStep_out_length_le (runPlaces n w)
    omega

theorem enc_length_le (v : U64) : (enc v).length ≤ 11 := by
  by_cases h : v = 0#64
  · rw [h, enc_zero]; simp
  · rw [enc_of_ne_zero h]
    simpa [encodeStart] using runPlaces_out_length_le 11 (encodeStart v)

/-- The terminator's symbol (R143). -/
theorem sym_eq_ofNat {n : Nat} (h : n ≤ 9) : sym n = BitVec.ofNat 8 (0x30 + n) :=
  sym_of_getElem? (alphabet_digit n h)

/-! ### Big-endian values of at most 8 bytes (R180, R185) -/

/-- The shift and the OR of R180 are exact while there is room for a byte. -/
theorem toNat_shiftLeft_or_byte {v : U64} (hv : v.toNat < 2 ^ 56) (x : Byte) :
    ((v <<< 8) ||| x.setWidth 64).toNat = v.toNat * 256 + x.toNat := by
  have hx := x.isLt
  have hshift : (v <<< 8).toNat = v.toNat <<< 8 := by
    rw [BitVec.toNat_shiftLeft, Nat.mod_eq_of_lt]
    rw [Nat.shiftLeft_eq]; omega
  rw [BitVec.toNat_or, hshift, BitVec.toNat_setWidth, Nat.mod_eq_of_lt (by omega),
    ← Nat.shiftLeft_add_eq_or_of_lt hx, Nat.shiftLeft_eq]

theorem bytesValue_lt_of_le {b : Bytes} {n : Nat} (h : b.length ≤ n) : bytesValue b < 256 ^ n :=
  (bytesValue_lt b).trans_le (Nat.pow_le_pow_right (by norm_num) h)

theorem beParse_toNat {b : Bytes} (h : b.length ≤ 8) : (beParse b).toNat = bytesValue b := by
  induction b using List.reverseRecOn with
  | nil => rfl
  | append_singleton b x ih =>
    have hlen : b.length ≤ 7 := by simpa [Nat.lt_succ_iff] using h
    have hb : (beParse b).toNat = bytesValue b := ih (by omega)
    have hlt : bytesValue b < 2 ^ 56 := bytesValue_lt_of_le hlen
    rw [beParse_append_one, toNat_shiftLeft_or_byte (by omega), hb, bytesValue_append, bytesValue_cons]
    simp [bytesValue_nil]

/-- R186: rendering a parsed sequence at its own length gives it back. -/
theorem beRender_beParse {b : Bytes} (h : b.length ≤ 8) : beRender (beParse b) b.length = b := by
  induction b using List.reverseRecOn with
  | nil => rfl
  | append_singleton b x ih =>
    have hlen : b.length ≤ 7 := by simpa [Nat.lt_succ_iff] using h
    have hlt : (beParse b).toNat < 2 ^ 56 := by
      rw [beParse_toNat (by omega)]; exact bytesValue_lt_of_le hlen
    have hvalue := toNat_shiftLeft_or_byte hlt x
    have hx := x.isLt
    have hhigh : (beParse (b ++ [x])) >>> 8 = beParse b := by
      apply BitVec.eq_of_toNat_eq
      rw [beParse_append_one, BitVec.toNat_ushiftRight, hvalue, Nat.shiftRight_eq_div_pow]
      omega
    have hlow : (beParse (b ++ [x])).setWidth 8 = x := by
      apply BitVec.eq_of_toNat_eq
      rw [beParse_append_one, BitVec.toNat_setWidth, hvalue]
      omega
    rw [List.length_append, List.length_singleton, beRender_succ, hhigh, hlow, ih (by omega)]

/-! ### The fragmenter's text (R142 to R145) -/

/-- A window of 8 bytes before the last: its padded value (R142, R145). -/
theorem fragmentStep_block (pre x post : Bytes) (hx : x.length = 8) (hpost : post ≠ []) (out : Text) :
    fragmentStep (pre ++ x ++ post) { off := pre.length, remaining := (x ++ post).length, out := out } =
      { off := (pre ++ x).length, remaining := post.length, out := out ++ pad11 (enc (beParse x)) } := by
  have hpos : 0 < post.length := List.length_pos_iff.mpr hpost
  have hslice : slice (pre ++ x ++ post) pre.length (pre.length + 8) = x := by
    rw [← hx]; exact slice_mid pre x post
  simp only [fragmentStep, Config.blockBytes, hslice, List.length_append, hx]
  rw [if_pos (by omega)]
  congr 1
  omega

/-- The final window: its unpadded value and its terminator (R143). -/
theorem fragmentStep_final (pre x : Bytes) (hx : x.length ≤ 8) (out : Text) :
    (fragmentStep (pre ++ x) { off := pre.length, remaining := x.length, out := out }).out =
      out ++ enc (beParse x) ++ [sym x.length] := by
  have hslice : slice (pre ++ x) pre.length (pre ++ x).length = x := by
    simpa using slice_mid pre x []
  simp only [fragmentStep, Config.blockBytes, hslice]
  exact if_neg (by omega)

/-- The fragmenter from a window on, where blocks of 8 bytes and a final block are left. -/
theorem fragmentLoop_blocks (blocks : List Bytes) (hblocks : ∀ x ∈ blocks, x.length = 8) (final : Bytes)
    (hne : final ≠ []) (hfinal : final.length ≤ 8) (pre : Bytes) (out : Text) :
    (fragmentLoop (pre ++ (blocks.flatten ++ final)) (blocks.length + 1)
        { off := pre.length, remaining := (blocks.flatten ++ final).length, out := out }).out =
      out ++ (blocks.map fun x => pad11 (enc (beParse x))).flatten ++ enc (beParse final) ++
        [sym final.length] := by
  induction blocks generalizing pre out with
  | nil =>
    have hlt : 0 < final.length := List.length_pos_iff.mpr hne
    simp only [List.flatten_nil, List.nil_append, List.length_nil, List.map_nil, List.append_nil]
    rw [fragmentLoop, if_pos (by simp [hlt]), fragmentLoop, fragmentStep_final pre final hfinal]
  | cons x blocks ih =>
    have hx : x.length = 8 := hblocks x (by simp)
    have hmore : blocks.flatten ++ final ≠ [] := by simp [hne]
    rw [List.flatten_cons, List.append_assoc, ← List.append_assoc pre, List.length_cons, fragmentLoop,
      if_pos (by simp; omega), fragmentStep_block pre x _ hx hmore,
      ih (fun y hy => hblocks y (by simp [hy])) (pre ++ x)]
    simp

/-- EB of blocks of 8 bytes and a final block (R142 to R145). -/
theorem encodeBlocks_blocks (blocks : List Bytes) (hblocks : ∀ x ∈ blocks, x.length = 8) (final : Bytes)
    (hne : final ≠ []) (hfinal : final.length ≤ 8) :
    encodeBlocks (blocks.flatten ++ final) =
      (blocks.map fun x => pad11 (enc (beParse x))).flatten ++ enc (beParse final) ++ [sym final.length] := by
  have hlt : 0 < final.length := List.length_pos_iff.mpr hne
  have hcount : blockCount (blocks.flatten ++ final).length = blocks.length + 1 := by
    rw [List.length_append, flatten_length_of_blocks blocks hblocks]
    simp only [blockCount, Config.blockBytes]
    omega
  rw [encodeBlocks, if_neg (by simp [hne]), hcount]
  simpa [fragmentStart] using fragmentLoop_blocks blocks hblocks final hne hfinal [] []

/-- Settles O24: a sequence that is not empty is blocks of 8 bytes and a final block, and the windows of the
fragmenter are these blocks. -/
theorem encodeBytesFramesTheBlocks : Obligations.EncodeBytesFramesTheBlocks := by
  refine fun s => ⟨fun hs => ?_, fun b hb hs => ?_⟩
  · rw [exec_encodeBytes hs]; rfl
  · obtain ⟨blocks, final, hblocks, hpos, hfinal, rfl⟩ := exists_blocks 8 (by norm_num) b hb
    refine ⟨blocks, final, rfl, hblocks, hpos, hfinal, fun x _ => enc_length_le _, ?_⟩
    rw [exec_encodeBytes hs, encodeBlocks_blocks blocks hblocks final (List.length_pos_iff.mp hpos) hfinal,
      sym_eq_ofNat (by omega)]
    rfl

/-! ### DEC of a window (R154) -/

theorem decodeSymbol_ne_emptyInput (order : Config.SymbolOrder) (acc : U64) (c : CharCode) :
    decodeSymbol order acc c ≠ .error .emptyInput := by
  cases hc : val c with
  | none =>
    by_cases hacc : Config.maxU64 < acc.toNat * 62
    · rw [decodeSymbol_of_both_fail order hc hacc]
      cases order <;> simp [sameSymbolError]
    · rw [decodeSymbol_of_invalid order hc (Nat.not_lt.mp hacc)]
      simp
  | some d =>
    simp only [decodeSymbol, hc]
    split <;> simp

theorem decodeFrom_ne_emptyInput (order : Config.SymbolOrder) (acc : U64) (t : Text) :
    decodeFrom order acc t ≠ .error .emptyInput := by
  induction t generalizing acc with
  | nil => simp [decodeFrom]
  | cons c t ih =>
    cases h : decodeSymbol order acc c with
    | error e =>
      rw [decodeFrom_cons_of_error t h]
      exact fun he => decodeSymbol_ne_emptyInput order acc c (h.trans he)
    | ok a => rw [decodeFrom_cons_of_ok t h]; exact ih a

theorem dec_ne_emptyInput (order : Config.SymbolOrder) {t : Text} (h : t ≠ []) :
    dec order t ≠ .error .emptyInput := by
  rw [dec_of_ne_nil order h]; exact decodeFrom_ne_emptyInput order _ t

/-- DEC of a padded block (R145): the symbols '0' in front do not change the value. -/
theorem dec_pad11_enc (order : Config.SymbolOrder) (v : U64) : dec order (pad11 (enc v)) = .ok v := by
  have halpha : inAlphabet (pad11 (enc v)) = true := by
    rw [pad11, inAlphabet_append, inAlphabet_zeros, inAlphabet_enc]; rfl
  have hvalue : textValue (pad11 (enc v)) = v.toNat := by rw [pad11, textValue_zeros, textValue_enc]
  have hfits : textValue (pad11 (enc v)) ≤ Config.maxU64 := by rw [hvalue]; exact Nat.le_of_lt_succ v.isLt
  have hne : pad11 (enc v) ≠ [] := by simp [pad11, enc_ne_nil]
  rw [dec_of_fits order hne halpha hfits, hvalue, BitVec.ofNat_toNat, BitVec.setWidth_eq]

/-! ### The window scan, one window at a time (R153 to R155) -/

theorem deframeAll_of_done (order : Config.SymbolOrder) (t : Text) {w : DeframerWork} (h : w.cl ≤ w.off) :
    deframeAll order t w = .ok w.out := by
  rw [deframeAll, deframeLoop_of_done order t _ w h]

/-- The scan before a window is that window and the scan after it. -/
theorem deframeAll_of_lt (order : Config.SymbolOrder) (t : Text) {w : DeframerWork} (h : w.off < w.cl) :
    deframeAll order t w = (deframeStep order t w).bind (deframeAll order t) := by
  have hle := le_windowCount w.cl
  obtain ⟨m, hm⟩ : ∃ m, windowCount w.cl = m + 1 := Nat.exists_eq_add_one.mpr (by omega)
  rw [deframeAll, hm, deframeLoop, if_pos h]
  cases hstep : deframeStep order t w with
  | error e => rfl
  | ok w' =>
    obtain ⟨-, hcl, hoff, -⟩ := deframeStep_ok hstep
    show _ = deframeAll order t w'
    rw [deframeAll, hcl, hm, deframeLoop_of_le order t m (m + 1) w' (by omega) (by omega)]

/-- The window at the offset, in the content; the terminator behind it is never part of it. -/
theorem deframeStep_of_lt (order : Config.SymbolOrder) (content : Text) (c : CharCode) {w : DeframerWork}
    (hcl : w.cl = content.length) (h : w.off < w.cl) :
    deframeStep order (content ++ [c]) w =
      deframeWindow order (slice content w.off (w.off + 11))
        (if w.cl - w.off ≤ 11 then w.lbs else 8) w := by
  simp only [deframeStep, Config.padWidth, Config.blockBytes, slice, Nat.add_sub_cancel_left]
  have hdrop : (content ++ [c]).drop w.off = content.drop w.off ++ [c] :=
    List.drop_append_of_le_length (by omega)
  have hlen : (content.drop w.off).length = w.cl - w.off := by rw [List.length_drop, hcl]
  split
  · rw [hdrop, List.take_append_of_le_length hlen.ge, List.take_of_length_le hlen.le,
      List.take_of_length_le (by omega)]
  · rw [hdrop, List.take_append_of_le_length (by omega)]

theorem deframeWindow_of_ok {order : Config.SymbolOrder} {x : Text} {v : U64} (h : dec order x = .ok v)
    (n : Nat) (w : DeframerWork) :
    deframeWindow order x n w = .ok { w with off := w.off + 11, out := w.out ++ beRender v n } := by
  rw [deframeWindow, h]

theorem deframeWindow_of_error {order : Config.SymbolOrder} {x : Text} {e : CommandError}
    (h : dec order x = .error e) (n : Nat) (w : DeframerWork) : deframeWindow order x n w = .error e := by
  rw [deframeWindow, h]

/-- The scan passes exactly where every window left decodes. -/
theorem deframeAll_isOk_iff (order : Config.SymbolOrder) (content : Text) (c : CharCode) {n : Nat}
    {w : DeframerWork} (hcl : w.cl = content.length) (hn : w.cl ≤ w.off + 11 * n) :
    (∃ out, deframeAll order (content ++ [c]) w = .ok out) ↔
      ∀ k, w.off + 11 * k < w.cl →
        ∃ v, dec order (slice content (w.off + 11 * k) (w.off + 11 * k + 11)) = .ok v := by
  induction n generalizing w with
  | zero =>
    rw [deframeAll_of_done order _ (by omega)]
    exact ⟨fun _ k hk => by omega, fun _ => ⟨_, rfl⟩⟩
  | succ n ih =>
    by_cases hlt : w.off < w.cl
    · rw [deframeAll_of_lt order _ hlt, deframeStep_of_lt order content c hcl hlt, ← Nat.and_forall_add_one]
      cases hx : dec order (slice content w.off (w.off + 11)) with
      | error e => simp [deframeWindow_of_error hx, Except.bind, hlt]
      | ok v =>
        rw [deframeWindow_of_ok hx]
        refine (ih (w := { w with off := w.off + 11, out := _ }) hcl (by simp only; omega)).trans ?_
        simp [Nat.mul_add, Nat.add_assoc, Nat.add_left_comm, Nat.add_comm]
    · rw [deframeAll_of_done order _ (by omega)]
      exact ⟨fun _ k hk => by omega, fun _ => ⟨_, rfl⟩⟩

/-- A window in the content: full, or the last one. -/
theorem slice_window (pre : Text) {x rest : Text} (hx : x.length ≤ 11) (hrest : rest = [] ∨ x.length = 11) :
    slice (pre ++ x ++ rest) pre.length (pre.length + 11) = x := by
  obtain rfl | h11 := hrest
  · simp [slice, List.take_of_length_le hx]
  · rw [← h11]; exact slice_mid pre x rest

/-- DB's working state at the window behind `pre` in the content. -/
def deframerAt (content pre : Text) (lbs : Nat) (out : Bytes) : DeframerWork :=
  { lbs := lbs, cl := content.length, off := pre.length, out := out }

theorem deframeStart_concat (content : Text) (c : CharCode) (lbs : Nat) :
    deframeStart (content ++ [c]) lbs = deframerAt content [] lbs [] := by
  simp [deframeStart, deframerAt]

section OneWindow

variable {order : Config.SymbolOrder} {content pre x rest : Text} (c : CharCode) {lbs : Nat} {out : Bytes}
  (hcontent : content = pre ++ x ++ rest) (hne : x ≠ []) (hx : x.length ≤ 11)
include hcontent hne hx

/-- The scan at the window `x`, the last one or a full one. -/
theorem deframeAll_window (hrest : rest = [] ∨ x.length = 11) :
    deframeAll order (content ++ [c]) (deframerAt content pre lbs out) =
      (deframeWindow order x (if rest = [] then lbs else 8) (deframerAt content pre lbs out)).bind
        (deframeAll order (content ++ [c])) := by
  have hpos : 0 < x.length := List.length_pos_iff.mpr hne
  have hlen : content.length = pre.length + x.length + rest.length := by
    rw [hcontent, List.length_append, List.length_append]
  have hlt : (deframerAt content pre lbs out).off < (deframerAt content pre lbs out).cl := by
    simp only [deframerAt]; omega
  have hslice : slice content pre.length (pre.length + 11) = x := by rw [hcontent, slice_window pre hx hrest]
  have hlast : content.length - pre.length ≤ 11 ↔ rest = [] := by
    have := hrest.imp_left List.length_eq_zero_iff.mpr
    rw [← List.length_eq_zero_iff]
    omega
  rw [deframeAll_of_lt order _ hlt, deframeStep_of_lt order content c rfl hlt]
  simp only [deframerAt, hslice, hlast]

theorem deframeAll_window_of_error (hrest : rest = [] ∨ x.length = 11) {e : CommandError}
    (hdec : dec order x = .error e) :
    deframeAll order (content ++ [c]) (deframerAt content pre lbs out) = .error e := by
  rw [deframeAll_window c hcontent hne hx hrest, deframeWindow_of_error hdec]
  rfl

theorem deframeAll_final_window (hrest : rest = []) {v : U64} (hdec : dec order x = .ok v) :
    deframeAll order (content ++ [c]) (deframerAt content pre lbs out) = .ok (out ++ beRender v lbs) := by
  rw [deframeAll_window c hcontent hne hx (.inl hrest), deframeWindow_of_ok hdec, if_pos hrest]
  exact deframeAll_of_done order _ (by simp [deframerAt, hcontent, hrest]; omega)

theorem deframeAll_full_window (hrest : rest ≠ []) (h11 : x.length = 11) {v : U64}
    (hdec : dec order x = .ok v) :
    deframeAll order (content ++ [c]) (deframerAt content pre lbs out) =
      deframeAll order (content ++ [c]) (deframerAt content (pre ++ x) lbs (out ++ beRender v 8)) := by
  rw [deframeAll_window c hcontent hne hx (.inr h11), deframeWindow_of_ok hdec, if_neg hrest]
  simp [Except.bind, deframerAt, h11]

end OneWindow

/-- The scan over full windows that decode, with more content after them. -/
theorem deframeAll_windows {order : Config.SymbolOrder} {windows : List (Text × U64)}
    (hwindows : ∀ y ∈ windows, y.1.length = 11 ∧ dec order y.1 = .ok y.2) {content pre tail : Text}
    (hcontent : content = pre ++ (windows.map Prod.fst).flatten ++ tail) (htail : tail ≠ [])
    (c : CharCode) (lbs : Nat) (out : Bytes) :
    deframeAll order (content ++ [c]) (deframerAt content pre lbs out) =
      deframeAll order (content ++ [c])
        (deframerAt content (pre ++ (windows.map Prod.fst).flatten) lbs
          (out ++ (windows.map fun y => beRender y.2 8).flatten)) := by
  induction windows generalizing pre out with
  | nil => simp
  | cons y windows ih =>
    obtain ⟨hlen, hdec⟩ := hwindows y (by simp)
    have hne : y.1 ≠ [] := List.length_pos_iff.mp (by omega)
    have hmore : (windows.map Prod.fst).flatten ++ tail ≠ [] := by simp [htail]
    have hsplit : content = pre ++ y.1 ++ ((windows.map Prod.fst).flatten ++ tail) := by simp [hcontent]
    rw [deframeAll_full_window c hsplit hne hlen.le hmore hlen hdec,
      ih (fun z hz => hwindows z (by simp [hz])) (pre := pre ++ y.1) (by simp [hcontent])]
    simp

/-! ### DB (R150 to R156) -/

theorem decodeBlocks_of_short (order : Config.SymbolOrder) {t : Text} (h : t.length < 2) :
    decodeBlocks order t = .error .emptyInput :=
  if_pos h

theorem decodeBlocks_of_long (order : Config.SymbolOrder) {t : Text} (h : 2 ≤ t.length) :
    decodeBlocks order t = decodeTerminated order t :=
  if_neg (show ¬ t.length < 2 by omega)

/-- Content and its terminator are two symbols at least (R151). -/
theorem two_le_length_concat {content : Text} (hne : content ≠ []) (c : CharCode) :
    2 ≤ (content ++ [c]).length := by
  have := List.length_pos_iff.mpr hne
  rw [List.length_append, List.length_singleton]
  omega

/-- DB of content and a terminator that passes is the scan of the content. -/
theorem decodeBlocks_concat (order : Config.SymbolOrder) {content : Text} (hne : content ≠ []) {c : CharCode}
    {n : Nat} (hc : val c = some n) (hn : n ≤ 8) :
    decodeBlocks order (content ++ [c]) = deframeAll order (content ++ [c]) (deframerAt content [] n []) := by
  have hterm : terminatorValue (content ++ [c]) = .ok n := by
    simp only [terminatorValue, List.getLast?_concat, hc]
    exact if_neg (by simpa using hn)
  rw [decodeBlocks_of_long order (two_le_length_concat hne c), decodeTerminated, hterm,
    ← deframeStart_concat content c]

/-- DB of a text whose terminator fails (R152). -/
theorem decodeBlocks_of_terminator_error (order : Config.SymbolOrder) {t : Text} (hlong : 2 ≤ t.length)
    {e : CommandError} (h : terminatorValue t = .error e) : decodeBlocks order t = .error e := by
  rw [decodeBlocks_of_long order hlong, decodeTerminated, h]

section Windows

variable {order : Config.SymbolOrder} {windows : List (Text × U64)}
  (hwindows : ∀ y ∈ windows, y.1.length = 11 ∧ dec order y.1 = .ok y.2) {x rest : Text} (hne : x ≠ [])
  {c : CharCode} {n : Nat} (hc : val c = some n) (hn : n ≤ 8)
include hwindows hne hc hn

/-- DB of full windows that decode is the scan of what follows them. -/
theorem decodeBlocks_after_windows :
    decodeBlocks order ((windows.map Prod.fst).flatten ++ x ++ rest ++ [c]) =
      deframeAll order ((windows.map Prod.fst).flatten ++ x ++ rest ++ [c])
        (deframerAt ((windows.map Prod.fst).flatten ++ x ++ rest) (windows.map Prod.fst).flatten n
          (windows.map fun y => beRender y.2 8).flatten) := by
  rw [decodeBlocks_concat order (by simp [hne]) hc hn,
    deframeAll_windows hwindows (pre := []) (tail := x ++ rest) (by simp) (by simp [hne])]
  rfl

/-- DB of full windows and a final one that decode (R153 to R155). -/
theorem decodeBlocks_windows (hx : x.length ≤ 11) {v : U64} (hdec : dec order x = .ok v) :
    decodeBlocks order ((windows.map Prod.fst).flatten ++ x ++ [c]) =
      .ok ((windows.map fun y => beRender y.2 8).flatten ++ beRender v n) := by
  have h := decodeBlocks_after_windows (rest := []) hwindows hne hc hn
  rw [deframeAll_final_window c rfl hne hx rfl hdec, List.append_nil] at h
  exact h

/-- DB of full windows that decode and a window, full or final, that does not (R154). -/
theorem decodeBlocks_windows_error (hx : x.length ≤ 11) (hrest : rest = [] ∨ x.length = 11)
    {e : CommandError} (hdec : dec order x = .error e) :
    decodeBlocks order ((windows.map Prod.fst).flatten ++ x ++ rest ++ [c]) = .error e := by
  rw [decodeBlocks_after_windows hwindows hne hc hn, deframeAll_window_of_error c rfl hne hx hrest hdec]

end Windows

/-- Settles O27: the scan takes the full windows, and the window after them decides. -/
theorem decodeBytesRendersTheWindows : Obligations.DecodeBytesRendersTheWindows := by
  intro s windows x rest c n hs hwindows hpos hx hc hn
  have hne : x ≠ [] := List.length_pos_iff.mp hpos
  refine ⟨dec_ne_emptyInput _ hne, fun v hrest hdec => ?_, fun hrest => ⟨fun hdec => ?_, fun hdec => ?_⟩⟩
  · subst hrest
    rw [exec_decodeBytes hs, List.append_nil, decodeBlocks_windows hwindows hne hc hn hx hdec]
    rfl
  · rw [exec_decodeBytes hs, decodeBlocks_windows_error hwindows hne hc hn hx hrest hdec]; rfl
  · rw [exec_decodeBytes hs, decodeBlocks_windows_error hwindows hne hc hn hx hrest hdec]; rfl

/-- A command that gives bytes or an error ends with OK exactly when it gives bytes. -/
theorem finishBytes_ok_iff {r : Except CommandError Bytes} {s : State} :
    (∃ t, finishBytes r s = .next t ∧ t.status = 0x00#8) ↔ ∃ b, r = .ok b := by
  constructor
  · rintro ⟨t, h, hstatus⟩
    obtain ⟨e, -, rfl⟩ | ⟨b, hb, -⟩ := finishBytes_next h
    · exact absurd ((statusWith_eq_zero_iff _).mp hstatus) (errorCode_ne_ok e)
    · exact ⟨b, hb⟩
  · rintro ⟨b, rfl⟩
    exact ⟨_, rfl, rfl⟩

/-- Settles O28: the length check and the terminator come before the windows, and with a terminator that
passes the scan of the content decides. -/
theorem decodeBytesChecksLengthThenTerminator : Obligations.DecodeBytesChecksLengthThenTerminator := by
  refine ⟨fun s t hs hshort => ?_, fun s content c hs hne => ?_⟩
  · rw [exec_decodeBytes hs, decodeBlocks_of_short _ hshort]; rfl
  have hlong : 2 ≤ (content ++ [c]).length := two_le_length_concat hne c
  rw [exec_decodeBytes hs]
  refine ⟨fun hc => ?_, fun n hc hn => ?_, fun n hc hn => ?_⟩
  · have hterm : terminatorValue (content ++ [c]) = .error .invalidCharacter := by simp [terminatorValue, hc]
    rw [decodeBlocks_of_terminator_error _ hlong hterm]; rfl
  · have hterm : terminatorValue (content ++ [c]) = .error .malformedTerminator := by
      simp [terminatorValue, hc, Config.terminatorMax, hn]
    rw [decodeBlocks_of_terminator_error _ hlong hterm]; rfl
  · have hfuel : content.length ≤ 0 + 11 * content.length := by omega
    rw [finishBytes_ok_iff, decodeBlocks_concat _ hne hc hn, deframeAll_isOk_iff _ content c rfl hfuel]
    simp [deframerAt]

/-! ### The round trip (R158) -/

/-- DB inverts EB: each padded block decodes to its value and renders to its bytes, and the terminator gives
the final block its length. -/
theorem decodeBlocks_encodeBlocks (order : Config.SymbolOrder) (b : Bytes) :
    decodeBlocks order (encodeBlocks b) = .ok b := by
  by_cases hb : b = []
  · subst hb; rfl
  · obtain ⟨blocks, final, hblocks, hpos, hfinal, rfl⟩ := exists_blocks 8 (by norm_num) b hb
    have hwindows : ∀ y ∈ blocks.map fun x => (pad11 (enc (beParse x)), beParse x),
        y.1.length = 11 ∧ dec order y.1 = .ok y.2 := by
      simp only [List.mem_map, forall_exists_index, and_imp]
      rintro y x - rfl
      exact ⟨pad11_length (enc_length_le _), dec_pad11_enc order _⟩
    have hrender : (blocks.map fun x => beRender (beParse x) 8) = blocks := by
      refine (List.map_congr_left fun x hx => ?_).trans (List.map_id blocks)
      rw [← hblocks x hx, beRender_beParse (hblocks x hx).le]; rfl
    have h := decodeBlocks_windows hwindows (enc_ne_nil _) (val_sym final.length (by omega)) hfinal
      (enc_length_le _) (dec_enc order (beParse final))
    simp only [List.map_map, Function.comp_def, hrender, beRender_beParse hfinal] at h
    rw [encodeBlocks_blocks blocks hblocks final (List.length_pos_iff.mp hpos) hfinal, h]

/-- Settles O29: TEXT_OUT holds EB's text, and DB inverts EB. -/
theorem byteRoundTrip : Obligations.ByteRoundTrip := by
  intro s s1 b hs h
  rw [exec_encodeBytes hs] at h
  cases h
  refine ⟨encodeBlocks b, rfl, ?_⟩
  rw [exec_decodeBytes (t := encodeBlocks b) rfl, decodeBlocks_encodeBlocks]
  rfl

/-! ### The stepped framers (R160) -/

/-- A run ends with the step that leaves no command in progress. -/
theorem microFinish_of_last {s t : State} {w : Work} (hw : s.work = some w) (h : advance w s = .next t)
    (ht : t.work = none) (n : Nat) : microFinish (n + 1) s = .next t := by
  rw [Nat.add_comm, microFinish_add ((microFinish_one hw).trans h), microFinish_of_idle n ht]

theorem finishBytes_work_none (r : Except CommandError Bytes) (s : State) :
    ∃ t, finishBytes r s = .next t ∧ t.work = none := by
  cases r <;> exact ⟨_, rfl, rfl⟩

theorem fragmentStep_off (b : Bytes) (w : FragmenterWork) : (fragmentStep b w).off = w.off + 8 := rfl

/-- One window more, while windows are left. -/
theorem fragmentLoop_succ (b : Bytes) (n : Nat) (w : FragmenterWork) (h : (fragmentLoop b n w).off < b.length) :
    fragmentLoop b (n + 1) w = fragmentStep b (fragmentLoop b n w) := by
  rw [fragmentLoop_add, fragmentLoop, if_pos h, fragmentLoop]

/-- The offset before window `j`. -/
theorem fragmentLoop_start_off (b : Bytes) {j : Nat} (hj : 8 * j < b.length + 8) :
    (fragmentLoop b j (fragmentStart b)).off = 8 * j := by
  induction j with
  | zero => rfl
  | succ j ih =>
    have hoff := ih (by omega)
    rw [fragmentLoop_succ b j _ (by omega), fragmentStep_off, hoff]
    omega

theorem advance_fragment {s : State} {b : Bytes} (hs : s.bytesIn = some b) (f : FragmenterWork)
    (w : Option Work) :
    advance (.fragment f) { s with work := w } = advanceFragment b f { s with work := w } :=
  withBytesIn_of_eq (s := { s with work := w }) hs _

/-- After `j` windows, before one that is there. -/
theorem microFinish_fragment {s : State} {b : Bytes} (hs : s.bytesIn = some b) {j : Nat}
    (hj : 8 * j < b.length) :
    microFinish j { s with work := some (.fragment (fragmentStart b)) } =
      .next { s with work := some (.fragment (fragmentLoop b j (fragmentStart b))) } := by
  induction j with
  | zero => rfl
  | succ j ih =>
    have hne : b ≠ [] := List.length_pos_iff.mp (by omega)
    have hoff : (fragmentLoop b j (fragmentStart b)).off = 8 * j := fragmentLoop_start_off b (by omega)
    have hmore : ¬ b.length ≤ (fragmentStep b (fragmentLoop b j (fragmentStart b))).off := by
      rw [fragmentStep_off, hoff]; omega
    rw [microFinish_succ (ih (by omega)), advance_fragment hs, advanceFragment, if_neg hne, if_neg hmore,
      keepWork_eq, ← fragmentLoop_succ b j _ (by omega)]

/-- The last window completes encode_bytes. -/
theorem microFinish_fragment_all {s : State} {b : Bytes} (hs : s.bytesIn = some b) (hne : b ≠ []) :
    microFinish (blockCount b.length) { s with work := some (.fragment (fragmentStart b)) } =
      exec .encodeBytes s := by
  have hpos : 0 < b.length := List.length_pos_iff.mpr hne
  obtain ⟨m, hm, hlt, hge⟩ : ∃ m, blockCount b.length = m + 1 ∧ 8 * m < b.length ∧ b.length ≤ 8 * m + 8 :=
    ⟨(b.length - 1) / 8, by simp only [blockCount, Config.blockBytes]; omega, by omega, by omega⟩
  have hoff : (fragmentLoop b m (fragmentStart b)).off = 8 * m := fragmentLoop_start_off b (by omega)
  have hlast : b.length ≤ (fragmentStep b (fragmentLoop b m (fragmentStart b))).off := by
    rw [fragmentStep_off, hoff]; exact hge
  rw [exec_encodeBytes hs, encodeBlocks, if_neg hne, hm, microFinish_succ (microFinish_fragment hs hlt),
    advance_fragment hs, advanceFragment, if_neg hne, if_pos hlast, ← fragmentLoop_succ b m _ (by omega)]
  rfl

/-- The offset after `n` windows is at most theirs. -/
theorem deframeLoop_off_le {order : Config.SymbolOrder} {t : Text} (n : Nat) {w w' : DeframerWork}
    (h : deframeLoop order t n w = .ok w') : w'.off ≤ w.off + 11 * n := by
  induction n generalizing w with
  | zero => cases h; exact le_refl _
  | succ n ih =>
    by_cases hlt : w.off < w.cl
    · rw [deframeLoop, if_pos hlt] at h
      cases hstep : deframeStep order t w with
      | error e => rw [hstep] at h; cases h
      | ok w1 =>
        rw [hstep] at h
        obtain ⟨-, -, hoff, -⟩ := deframeStep_ok hstep
        have := ih h
        omega
    · rw [deframeLoop, if_neg hlt] at h
      cases h
      omega

/-- The scan over one window more passes only where the scan up to it and the window do. -/
theorem deframeLoop_succ_ok {order : Config.SymbolOrder} {t : Text} {n : Nat} {w w' : DeframerWork}
    (hmore : w.off + 11 * n < w.cl) (h : deframeLoop order t (n + 1) w = .ok w') :
    ∃ w1, deframeLoop order t n w = .ok w1 ∧ deframeStep order t w1 = .ok w' := by
  rw [deframeLoop_add] at h
  cases hbefore : deframeLoop order t n w with
  | error e => rw [hbefore] at h; cases h
  | ok w1 =>
    obtain ⟨hcl, -, -⟩ := deframeLoop_ok n hbefore
    have hoff := deframeLoop_off_le n hbefore
    rw [hbefore] at h
    simp only [deframeLoop] at h
    rw [if_pos (by omega)] at h
    refine ⟨w1, rfl, ?_⟩
    cases hstep : deframeStep order t w1 with
    | error e => rw [hstep] at h; cases h
    | ok w2 => rw [hstep] at h; exact h

section Deframe

variable {s : State} {t : Text} (hs : s.textIn = some t)
include hs

/-- TEXT_IN's text, whatever the working state. -/
theorem withTextIn_of_work (w : Option Work) (run : Text → Outcome) :
    withTextIn { s with work := w } run = run t :=
  withTextIn_of_eq (s := { s with work := w }) hs run

theorem advance_deframeLength (hlong : 2 ≤ t.length) (w : Option Work) :
    advance .deframeLength { s with work := w } = .next { s with work := some .deframeTerminator } := by
  rw [advance, withTextIn_of_work hs, if_neg (show ¬ t.length < 2 by omega),
    keepWork_eq]

theorem advance_deframeTerminator_of_ok {lbs : Nat} (h : terminatorValue t = .ok lbs) (w : Option Work) :
    advance .deframeTerminator { s with work := w } =
      .next { s with work := some (.deframeWindows (deframeStart t lbs)) } := by
  rw [advance, withTextIn_of_work hs, h]
  rfl

theorem advance_deframeTerminator_of_error {e : CommandError} (h : terminatorValue t = .error e)
    (w : Option Work) : advance .deframeTerminator { s with work := w } = abort e s := by
  rw [advance, withTextIn_of_work hs, h]
  rfl

/-- A window that decodes, before the end of the content. -/
theorem advance_deframeWindows_of_more {d d' : DeframerWork}
    (hstep : deframeStep Config.sameSymbolOrder t d = .ok d') (hmore : d'.off < d'.cl) (w : Option Work) :
    advance (.deframeWindows d) { s with work := w } = .next { s with work := some (.deframeWindows d') } := by
  rw [advance, withTextIn_of_work hs, advanceDeframe, hstep]
  exact if_neg (by omega)

/-- The last window, or one that fails, ends the command with the scan's result. -/
theorem advance_deframeWindows_of_end {d : DeframerWork} (hlt : d.off < d.cl)
    (hend : ∀ d', deframeStep Config.sameSymbolOrder t d = .ok d' → d'.cl ≤ d'.off) (w : Option Work) :
    advance (.deframeWindows d) { s with work := w } =
      finishBytes (deframeAll Config.sameSymbolOrder t d) s := by
  rw [advance, withTextIn_of_work hs, advanceDeframe, deframeAll_of_lt _ t hlt]
  cases hstep : deframeStep Config.sameSymbolOrder t d with
  | error e => rfl
  | ok d' =>
    have hdone := hend d' hstep
    simp only [Except.bind, if_pos hdone, deframeAll_of_done _ t hdone]
    rfl

/-- From a window on, a step a window ends decode_bytes with the scan's result. -/
theorem microFinish_deframeAll {n : Nat} {d : DeframerWork} (hlt : d.off < d.cl) (hn : d.cl ≤ d.off + 11 * n) :
    microFinish n { s with work := some (.deframeWindows d) } =
      finishBytes (deframeAll Config.sameSymbolOrder t d) s := by
  induction n generalizing d with
  | zero => omega
  | succ n ih =>
    by_cases hend : ∀ d', deframeStep Config.sameSymbolOrder t d = .ok d' → d'.cl ≤ d'.off
    · obtain ⟨u, hu, hidle⟩ := finishBytes_work_none (deframeAll Config.sameSymbolOrder t d) s
      rw [microFinish_of_last rfl ((advance_deframeWindows_of_end hs hlt hend _).trans hu) hidle, hu]
    · push Not at hend
      obtain ⟨d', hstep, hmore⟩ := hend
      obtain ⟨-, hcl, hoff, -⟩ := deframeStep_ok hstep
      have hfirst := (microFinish_one rfl).trans (advance_deframeWindows_of_more hs hstep hmore
        (some (.deframeWindows d)))
      rw [Nat.add_comm, microFinish_add hfirst, ih hmore (by omega), deframeAll_of_lt _ t hlt, hstep]
      rfl

variable (hlong : 2 ≤ t.length)
include hlong

theorem microFinish_deframeTerminator :
    microFinish 1 { s with work := some .deframeLength } = .next { s with work := some .deframeTerminator } :=
  (microFinish_one rfl).trans (advance_deframeLength hs hlong _)

theorem microFinish_deframeStart {lbs : Nat} (h : terminatorValue t = .ok lbs) :
    microFinish 2 { s with work := some .deframeLength } =
      .next { s with work := some (.deframeWindows (deframeStart t lbs)) } :=
  (microFinish_succ (microFinish_deframeTerminator hs hlong)).trans (advance_deframeTerminator_of_ok hs h _)

/-- After the length check, the terminator and `j` windows that decode, before one that is there. -/
theorem microFinish_deframeWindows {lbs : Nat} (h : terminatorValue t = .ok lbs) {j : Nat} {d : DeframerWork}
    (hj : 11 * j < t.length - 1) (hpass : deframeLoop Config.sameSymbolOrder t j (deframeStart t lbs) = .ok d) :
    microFinish (2 + j) { s with work := some .deframeLength } =
      .next { s with work := some (.deframeWindows d) } := by
  induction j generalizing d with
  | zero => cases hpass; exact microFinish_deframeStart hs hlong h
  | succ j ih =>
    obtain ⟨d1, hbefore, hstep⟩ := deframeLoop_succ_ok (by simp only [deframeStart]; omega) hpass
    obtain ⟨hcl, -, -⟩ := deframeLoop_ok _ hpass
    have hoff := deframeLoop_off_le _ hpass
    have hmore : d.off < d.cl := by rw [hcl]; simp only [deframeStart] at hoff ⊢; omega
    rw [← Nat.add_assoc, microFinish_succ (ih (by omega) hbefore),
      advance_deframeWindows_of_more hs hstep hmore]

end Deframe

/-- Settles O48: each window but the last leaves the loop body's working state, and the step at the last one or
at the first error ends with what the loop has left to give. -/
theorem steppedFramersTakeOneStepAWindow : Obligations.SteppedFramersTakeOneStepAWindow := by
  refine ⟨fun s b hs => ⟨fun j hj => microFinish_fragment hs (by omega), microFinish_fragment_all hs,
    fun hb => ?empty⟩, fun s t hs => ⟨fun hshort => ?short, fun hlong => ?_⟩⟩
  case empty =>
    rw [microFinish_one rfl, advance_fragment hs, advanceFragment, if_pos hb, exec_encodeBytes hs]
    rfl
  case short =>
    rw [microFinish_one rfl, advance, withTextIn_of_work hs, if_pos hshort, exec_decodeBytes hs,
      decodeBlocks_of_short _ hshort]
    rfl
  refine ⟨microFinish_deframeTerminator hs hlong, fun e he => ?_, fun lbs hlbs =>
    ⟨fun j d hj => microFinish_deframeWindows hs hlong hlbs (by omega), ?_⟩⟩
  · rw [microFinish_succ (microFinish_deframeTerminator hs hlong), advance_deframeTerminator_of_error hs he,
      exec_decodeBytes hs, decodeBlocks_of_terminator_error _ hlong he]
    rfl
  · have hlt : (deframeStart t lbs).off < (deframeStart t lbs).cl := by simp only [deframeStart]; omega
    rw [microFinish_add (microFinish_deframeStart hs hlong hlbs),
      microFinish_deframeAll hs hlt (by simp only [deframeStart]; omega), exec_decodeBytes hs,
      decodeBlocks_of_long _ hlong, decodeTerminated, hlbs]

end Sys2Proof.Machine
end

section
/-! The family 42_big_endian: be_read of at most 8 bytes and of more (R180, R182). -/

namespace Sys2Proof.Machine

theorem beParse_eq_ofNat {b : Bytes} (h : b.length ≤ 8) : beParse b = BitVec.ofNat 64 (bytesValue b) := by
  rw [← beParse_toNat h, BitVec.ofNat_toNat, BitVec.setWidth_eq]

theorem exec_beRead_of_le {s : State} {b : Bytes} (hs : s.bytesIn = some b) (h : b.length ≤ 8) :
    exec .beRead s = succeedValue (BitVec.ofNat 64 (bytesValue b)) s := by
  rw [exec_beRead hs, if_neg h.not_gt, beParse_eq_ofNat h]

theorem exec_beRead_of_lt {s : State} {b : Bytes} (hs : s.bytesIn = some b) (h : 8 < b.length) :
    exec .beRead s = abort .illegalCommand s := by
  rw [exec_beRead hs, if_pos h]

/-- Settles O32: BE_PARSE loses no bit of at most 8 bytes, and the length decides between the value and
IllegalCommand. -/
theorem beReadGivesTheBigEndianValue : Obligations.BeReadGivesTheBigEndianValue :=
  fun _ => ⟨fun hnone => withBytesIn_of_none hnone _, fun b hs =>
    ⟨fun hle => ⟨beParse_toNat hle, bytesValue_lt b, exec_beRead_of_le hs hle⟩,
      fun hlt => exec_beRead_of_lt hs hlt⟩⟩

end Sys2Proof.Machine
end

section
/-! The family 60_exceptions: what an error of a command changes (R207), and the core between two commands
(R219). -/

namespace Sys2Proof.Machine

/-- Settles O37: a command that answers a next state ends with an error, which is `endCommand` at its code with
no output, or with a success, whose STATUS is OK. -/
theorem errorsLeaveNoPartialResult : Obligations.ErrorsLeaveNoPartialResult := by
  intro i s t h
  obtain ⟨e, rfl⟩ | ⟨v, b, x, rfl, -⟩ := exec_next_endCommand h
  · exact .inr ⟨e, by cases e <;> rfl⟩
  · exact .inl rfl

/-- A step at an idle core with no pending host move. -/
theorem step_of_no_move {s : State} (hw : s.work = none) (hm : s.moves = []) : step s = .next s := by
  rw [step, hw, hm]

/-- Settles O9: with no command in progress and no pending move, `step` has nothing to take. -/
theorem idleCoreHoldsItsRegisters : Obligations.IdleCoreHoldsItsRegisters :=
  fun _ => step_of_no_move

end Sys2Proof.Machine
end

section
/-! The family 70_reset_and_hazards: the reset (R240), and the host that is held while a command is in progress
(R245). -/

namespace Sys2Proof.Machine

/-! ### Reset -/

/-- A pending reset lands whether or not a command is in progress. -/
theorem step_of_reset {s : State} {rest : List HostMove} (hm : s.moves = .reset :: rest) :
    step s = .next (resetCore { s with moves := rest }) := by
  cases hw : s.work with
  | none => exact step_of_move hw hm
  | some w => rw [step, hw, hm]

/-- The same in the stepped reading. -/
theorem microStep_of_reset {s : State} {rest : List HostMove} (hm : s.moves = .reset :: rest) :
    microStep s = .next (resetCore { s with moves := rest }) := by
  cases hw : s.work with
  | none => exact microStep_of_move hw hm nofun
  | some w => rw [microStep, hw, hm]

/-- Settles O14: both readings answer `resetCore`, whose fields are the reset values and the host's own. -/
theorem resetAbandonsACommandInProgress : Obligations.ResetAbandonsACommandInProgress :=
  fun _ _ hm => ⟨_, step_of_reset hm, microStep_of_reset hm, rfl, rfl, rfl, rfl, rfl, rfl, rfl, rfl, rfl,
    rfl, rfl, rfl⟩

/-! ### Operations that spare the host

A step of a command in progress is put together from reads of an operand, ends of a command and kept working
states; each of these spares the host, and so does what is put together from them. -/

/-- `s` with the STATUS, the outputs and the working state of `t`: what a command may write (R31, R38). -/
def withResultOf (t s : State) : State :=
  { s with
    status := t.status, valueOut := t.valueOut, bytesOut := t.bytesOut, textOut := t.textOut,
    work := t.work }

/-- Where the operation answers a next state, it answers the same result with any pending moves, and writes
nothing else. -/
def SparesHost (f : State → Outcome) : Prop :=
  ∀ ⦃s t : State⦄, f s = .next t → ∀ moves : List HostMove,
    f { s with moves := moves } = .next (withResultOf t { s with moves := moves })

theorem sparesHost_endCommand (c : BitVec 3) (v : Option U64) (b : Option Bytes) (x : Option Text) :
    SparesHost fun s => .next (endCommand c v b x s) := by
  rintro s t ⟨⟩ moves
  rfl

theorem sparesHost_abort (e : CommandError) : SparesHost (abort e) := sparesHost_endCommand _ _ _ _

theorem sparesHost_succeedValue (v : U64) : SparesHost (succeedValue v) := sparesHost_endCommand _ _ _ _

theorem sparesHost_succeedBytes (b : Bytes) : SparesHost (succeedBytes b) := sparesHost_endCommand _ _ _ _

theorem sparesHost_succeedText (x : Text) : SparesHost (succeedText x) := sparesHost_endCommand _ _ _ _

theorem sparesHost_keepWork (w : Work) : SparesHost (keepWork w) := by
  rintro s t ⟨⟩ moves
  rfl

theorem sparesHost_withValueIn {run : State → U64 → Outcome} (hrun : ∀ v, SparesHost fun s => run s v) :
    SparesHost fun s => withValueIn s (run s) := by
  intro s t h moves
  obtain ⟨v, hv, h⟩ := withValueIn_next h
  exact (withValueIn_of_eq hv _).trans (hrun v h moves)

theorem sparesHost_withBytesIn {run : State → Bytes → Outcome} (hrun : ∀ b, SparesHost fun s => run s b) :
    SparesHost fun s => withBytesIn s (run s) := by
  intro s t h moves
  obtain ⟨b, hb, h⟩ := withBytesIn_next h
  exact (withBytesIn_of_eq hb _).trans (hrun b h moves)

theorem sparesHost_withTextIn {run : State → Text → Outcome} (hrun : ∀ x, SparesHost fun s => run s x) :
    SparesHost fun s => withTextIn s (run s) := by
  intro s t h moves
  obtain ⟨x, hx, h⟩ := withTextIn_next h
  exact (withTextIn_of_eq hx _).trans (hrun x h moves)

theorem sparesHost_ite {p : Prop} [Decidable p] {f g : State → Outcome} (hf : SparesHost f)
    (hg : SparesHost g) : SparesHost fun s => if p then f s else g s := by
  split
  · exact hf
  · exact hg

/-! ### A step of the command in progress -/

theorem sparesHost_advancePlace (e : IntEncoderWork) : SparesHost (advancePlace e) :=
  sparesHost_ite (sparesHost_succeedText _) (sparesHost_keepWork _)

theorem sparesHost_advanceSymbol (x : Text) (d : IntDecoderWork) : SparesHost (advanceSymbol x d) := by
  unfold advanceSymbol
  split
  · exact sparesHost_succeedValue _
  · split
    · exact sparesHost_abort _
    · exact sparesHost_ite (sparesHost_succeedValue _) (sparesHost_keepWork _)

theorem sparesHost_advanceFragment (b : Bytes) (f : FragmenterWork) : SparesHost (advanceFragment b f) :=
  sparesHost_ite (sparesHost_succeedText _) (sparesHost_ite (sparesHost_succeedText _) (sparesHost_keepWork _))

theorem sparesHost_advanceDeframe (x : Text) (d : DeframerWork) : SparesHost (advanceDeframe x d) := by
  unfold advanceDeframe
  split
  · exact sparesHost_abort _
  · exact sparesHost_ite (sparesHost_succeedBytes _) (sparesHost_keepWork _)

theorem sparesHost_advance (w : Work) : SparesHost (advance w) := by
  cases w with
  | encodeZeroTest =>
    exact sparesHost_withValueIn fun _ => sparesHost_ite (sparesHost_succeedText _) (sparesHost_keepWork _)
  | encodePlaces e => exact sparesHost_advancePlace e
  | decodeEmptyTest =>
    exact sparesHost_withTextIn fun _ => sparesHost_ite (sparesHost_abort _) (sparesHost_keepWork _)
  | decodeSymbols d => exact sparesHost_withTextIn fun x => sparesHost_advanceSymbol x d
  | fragment f => exact sparesHost_withBytesIn fun b => sparesHost_advanceFragment b f
  | deframeLength =>
    exact sparesHost_withTextIn fun _ => sparesHost_ite (sparesHost_abort _) (sparesHost_keepWork _)
  | deframeTerminator =>
    refine sparesHost_withTextIn fun x => ?_
    split
    · exact sparesHost_abort _
    · exact sparesHost_keepWork _
  | deframeWindows d => exact sparesHost_withTextIn fun x => sparesHost_advanceDeframe x d

/-- With the pending moves as they are, the next state of an operation that spares the host shows the frame. -/
theorem SparesHost.eq_withResultOf {f : State → Outcome} (hf : SparesHost f) {s t : State}
    (h : f s = .next t) : t = withResultOf t s :=
  Host.Outcome.next.inj (h.symm.trans (hf h s.moves))

/-- An operation that spares the host leaves the pending moves, CMD, the inputs and the host's own fields. -/
theorem SparesHost.frame {f : State → Outcome} (hf : SparesHost f) {s t : State} (h : f s = .next t) :
    t.moves = s.moves ∧ t.cmd = s.cmd ∧ t.valueIn = s.valueIn ∧ t.bytesIn = s.bytesIn ∧
      t.textIn = s.textIn ∧ t.readData = s.readData ∧ t.freeReads = s.freeReads := by
  rw [hf.eq_withResultOf h]
  exact ⟨rfl, rfl, rfl, rfl, rfl, rfl, rfl⟩

/-- Settles O50: with a command in progress and no reset pending, a step is `advance`, which spares the host. -/
theorem noHostMoveLandsDuringACommand : Obligations.NoHostMoveLandsDuringACommand := by
  intro s t w hw hm h
  rw [microStep_of_work hw hm] at h
  have hspares := sparesHost_advance w
  obtain ⟨hmoves, hcmd, hvalue, hbytes, htext, hread, hfree⟩ := hspares.frame h
  refine ⟨hmoves, hcmd, hvalue, hbytes, htext, hread, hfree, fun moves hother => ?_⟩
  calc microStep { s with moves := moves }
    _ = advance w { s with moves := moves } := microStep_of_work hw hother
    _ = .next { withResultOf t s with moves := moves } := hspares h moves
    _ = .next { t with moves := moves } := by rw [← hspares.eq_withResultOf h]

end Sys2Proof.Machine
end

section
/-! The family other, the command words and the host's moves: the decoder against the encoder (R80 to R84), which
commands and which host moves answer a next state (R41, R242, R244), the placed command word (log 17), and what a
stop leaves (log 18). -/

namespace Sys2Proof.Machine

/-! ### The command word -/

/-- Settles O6: an accepted word is its command's own, and a well-formed command's word passes every check. -/
theorem decodeAcceptsExactlyTheEncodings : Obligations.DecodeAcceptsExactlyTheEncodings := by
  refine fun w i => ⟨encode_of_decode, ?_⟩
  rintro ⟨hwf, rfl⟩
  exact decode_encode hwf

/-- Settles O7: the words are read field by field. -/
theorem specCommandWordsDecode : Obligations.SpecCommandWordsDecode := by
  unfold Obligations.SpecCommandWordsDecode
  decide

theorem writeCmd_of_ok {w : CmdWord} {i : Instr} (h : decode w = .ok i) (s : State) :
    writeCmd w s = exec i { s with cmd := some w } := by
  simp [writeCmd, h]

/-- Settles O8: the step takes the move, and the CMD write runs the command its word decodes to. -/
theorem stepRunsTheDecodedCommand : Obligations.StepRunsTheDecodedCommand := by
  intro s w rest i hw hm hd
  rw [step_of_move hw hm]
  exact writeCmd_of_ok hd _

/-! ### Which commands answer a next state (R41) -/

theorem exists_next_withValueIn {s : State} {run : U64 → Outcome} (h : s.valueIn.isSome = true)
    (hrun : ∀ v, ∃ t, run v = .next t) : ∃ t, withValueIn s run = .next t := by
  obtain ⟨v, hv⟩ := Option.isSome_iff_exists.mp h
  rw [withValueIn_of_eq hv]
  exact hrun v

theorem exists_next_withBytesIn {s : State} {run : Bytes → Outcome} (h : s.bytesIn.isSome = true)
    (hrun : ∀ b, ∃ t, run b = .next t) : ∃ t, withBytesIn s run = .next t := by
  obtain ⟨b, hb⟩ := Option.isSome_iff_exists.mp h
  rw [withBytesIn_of_eq hb]
  exact hrun b

theorem exists_next_withTextIn {s : State} {run : Text → Outcome} (h : s.textIn.isSome = true)
    (hrun : ∀ u, ∃ t, run u = .next t) : ∃ t, withTextIn s run = .next t := by
  obtain ⟨u, hu⟩ := Option.isSome_iff_exists.mp h
  rw [withTextIn_of_eq hu]
  exact hrun u

theorem finishValue_exists_next (r : Except CommandError U64) (s : State) : ∃ t, finishValue r s = .next t := by
  cases r <;> exact ⟨_, rfl⟩

theorem finishBytes_exists_next (r : Except CommandError Bytes) (s : State) : ∃ t, finishBytes r s = .next t := by
  cases r <;> exact ⟨_, rfl⟩

/-- A command whose operand is written ends, with a result or an error. -/
theorem exec_exists_next {i : Instr} {s : State} (h : operandHeld i s = true) : ∃ t, exec i s = .next t := by
  cases i with
  | encodeUint64 => exact exists_next_withValueIn h fun _ => ⟨_, rfl⟩
  | decodeUint64 => exact exists_next_withTextIn h fun _ => finishValue_exists_next _ s
  | encodeBytes => exact exists_next_withBytesIn h fun _ => ⟨_, rfl⟩
  | decodeBytes => exact exists_next_withTextIn h fun _ => finishBytes_exists_next _ s
  | beRead =>
    refine exists_next_withBytesIn h fun b => ?_
    split <;> exact ⟨_, rfl⟩
  | beWrite len =>
    by_cases hl : 8 < len.toNat
    · exact ⟨_, exec_beWrite_illegal hl⟩
    · rw [exec, execBeWrite, if_neg hl]
      exact exists_next_withValueIn h fun _ => ⟨_, rfl⟩

/-- A command the core has reads its operand, so it answers a next state only where that is written. -/
theorem operandHeld_of_exec {i : Instr} {s t : State} (hi : i.wellFormed = true) (h : exec i s = .next t) :
    operandHeld i s = true := by
  have hc := exec_cases h
  cases i with
  | encodeUint64 => obtain ⟨v, hv, -⟩ := hc; simp [operandHeld, hv]
  | decodeUint64 => obtain ⟨u, hu, -⟩ := hc; simp [operandHeld, hu]
  | encodeBytes => obtain ⟨b, hb, -⟩ := hc; simp [operandHeld, hb]
  | decodeBytes => obtain ⟨u, hu, -⟩ := hc; simp [operandHeld, hu]
  | beRead => obtain ⟨b, hb, -⟩ := hc; simp [operandHeld, hb]
  | beWrite len =>
    have hle : len.toNat ≤ 8 := of_decide_eq_true hi
    obtain ⟨hlt, -⟩ | ⟨-, v, hv, -⟩ := hc
    · omega
    · simp [operandHeld, hv]

/-- Whether an operand is written depends on the three inputs alone. -/
theorem operandHeld_congr {s t : State} (hv : t.valueIn = s.valueIn) (hb : t.bytesIn = s.bytesIn)
    (hu : t.textIn = s.textIn) (i : Instr) : operandHeld i t = operandHeld i s := by
  cases i <;> simp [operandHeld, hv, hb, hu]

/-! ### Which host moves answer a next state (R242, R244) -/

theorem writeBytesIn_next_iff (b : Bytes) (s : State) :
    (∃ t, writeBytesIn b s = .next t) ↔ b.length ≤ Config.maxInBytes := by
  unfold writeBytesIn
  split <;> simp [*]

theorem writeTextIn_next_iff (u : Text) (s : State) :
    (∃ t, writeTextIn u s = .next t) ↔ u.length ≤ Config.maxInChars := by
  unfold writeTextIn
  split <;> simp [*]

theorem writeCmd_next_iff (w : CmdWord) (s : State) :
    (∃ t, writeCmd w s = .next t) ↔ ∀ i, decode w = .ok i → operandHeld i s = true := by
  cases hd : decode w with
  | error e =>
    rw [writeCmd_of_error hd]
    exact ⟨fun _ i h => (by cases h), fun _ => ⟨_, rfl⟩⟩
  | ok i =>
    obtain ⟨hwf, -⟩ := encode_of_decode hd
    have hheld : operandHeld i { s with cmd := some w } = operandHeld i s := operandHeld_congr rfl rfl rfl i
    rw [writeCmd_of_ok hd]
    constructor
    · rintro ⟨t, h⟩ j ⟨⟩
      exact hheld ▸ operandHeld_of_exec hwf h
    · exact fun h => exec_exists_next (hheld.trans (h i rfl))

theorem hostRead_next_iff (r : Reg) (s : State) :
    (∃ t, hostRead r s = .next t) ↔ readableReg r s = true := by
  cases r <;> simp only [hostRead, readableReg, returnRead_eq, returnFree_eq] <;> (try split) <;> simp [*]

/-- An idle core takes exactly the moves of a dutiful host. -/
theorem hostMove_next_iff (m : HostMove) (s : State) :
    (∃ t, hostMove m s = .next t) ↔ dutifulMove m s := by
  cases m with
  | writeValueIn v => exact ⟨fun _ => trivial, fun _ => ⟨_, rfl⟩⟩
  | writeBytesIn b => exact writeBytesIn_next_iff b s
  | writeTextIn u => exact writeTextIn_next_iff u s
  | writeCmd w => exact writeCmd_next_iff w s
  | read r => exact hostRead_next_iff r s
  | reset => exact ⟨fun _ => trivial, fun _ => ⟨_, rfl⟩⟩
  | _ => exact ⟨fun ⟨t, h⟩ => (by cases h), False.elim⟩

/-- Which other moves are pending does not matter to the host's duty. -/
theorem dutifulMove_moves (m : HostMove) (s : State) (moves : List HostMove) :
    dutifulMove m { s with moves := moves } ↔ dutifulMove m s := by
  cases m with
  | writeCmd w =>
    exact forall_congr' fun i => imp_congr_right fun _ => Bool.eq_iff_iff.mp (operandHeld_congr rfl rfl rfl i)
  | read r => cases r <;> rfl
  | _ => rfl

/-- Settles O12: with no move the step answers the state itself, and else it takes the oldest move. -/
theorem stepCompletesExactlyForADutifulHost : Obligations.StepCompletesExactlyForADutifulHost := by
  intro s hw
  cases hm : s.moves with
  | nil => exact ⟨fun _ _ _ => nofun, fun _ => ⟨s, step_of_no_move hw hm⟩⟩
  | cons m rest =>
    rw [step_of_move hw hm, hostMove_next_iff, dutifulMove_moves]
    refine ⟨?_, fun h => h m rest rfl⟩
    rintro h _ _ ⟨⟩
    exact h

/-! ### The placed command word (log 17) -/

theorem operandHeld_supplyOperands (i : Instr) (s : State) : operandHeld i (supplyOperands i s) = true := by
  cases i <;> rfl

/-- Settles O10: the placed word is the oldest move of an idle core, and the operands it needs are supplied. -/
theorem fetchWordRunsOnTheNextStep : Obligations.FetchWordRunsOnTheNextStep := by
  intro s nbits w c i hc hd
  have hplaced : s.withFetchWord nbits w =
      { supplyOperands i s with work := none, moves := .writeCmd c :: s.moves } := by
    simp only [State.withFetchWord, hc, hd]
  have hstep : step (s.withFetchWord nbits w) =
      exec i { supplyOperands i s with work := none, cmd := some c } := by
    rw [hplaced, step_of_move (m := .writeCmd c) (rest := s.moves) rfl rfl, hostMove, writeCmd_of_ok hd,
      ← supplyOperands_moves i s]
  refine ⟨hstep, ?_⟩
  rw [hstep]
  exact exec_exists_next ((operandHeld_congr rfl rfl rfl i).trans (operandHeld_supplyOperands i s))

/-! ### The access table (R40) -/

/-- Settles O11: an idle core's step is its oldest move, and each line of the table is one case of it. -/
theorem hostMovesFollowTheAccessTable : Obligations.HostMovesFollowTheAccessTable := by
  intro s rest hw
  have hstep : ∀ m, s.moves = m :: rest → step s = hostMove m { s with moves := rest } :=
    fun _ => step_of_move hw
  refine ⟨fun v hm => hstep _ hm, fun b hm hb => (hstep _ hm).trans (writeBytesIn_of_le hb _),
    fun t hm ht => (hstep _ hm).trans (writeTextIn_of_le ht _), ?_⟩
  have hread : ∀ r, s.moves = .read r :: rest → step s = hostRead r { s with moves := rest } :=
    fun r => hstep (.read r)
  refine ⟨fun v hm hv => ?_, fun b hm hb => ?_, fun t hm ht => ?_, fun hm hv => ?_, fun hm hb => ?_,
    fun hm ht => ?_, fun hm => hread _ hm, fun v hm hv => ?_, fun b hm hb => ?_, fun t hm ht => ?_,
    fun hm hv => (hread _ hm).trans (hostRead_valueOut_of_none hv),
    fun hm hb => (hread _ hm).trans (hostRead_bytesOut_of_none hb),
    fun hm ht => (hread _ hm).trans (hostRead_textOut_of_none ht), hread _, fun _ => hstep _, fun _ => hstep _,
    fun _ => hstep _, fun _ => hstep _⟩
  · simp [hread _ hm, hostRead, hv, returnRead_eq]
  · simp [hread _ hm, hostRead, hb, returnRead_eq]
  · simp [hread _ hm, hostRead, ht, returnRead_eq]
  · exact ⟨_, by simp only [hread _ hm, hostRead, hv, returnFree_eq]; rfl⟩
  · exact ⟨_, List.length_take_le _ _, by simp only [hread _ hm, hostRead, hb, returnFree_eq]; rfl⟩
  · exact ⟨_, List.length_take_le _ _, by simp only [hread _ hm, hostRead, ht, returnFree_eq]; rfl⟩
  · simp [hread _ hm, hostRead, hv, returnRead_eq]
  · simp [hread _ hm, hostRead, hb, returnRead_eq]
  · simp [hread _ hm, hostRead, ht, returnRead_eq]

/-! ### What a stop leaves (log 18) -/

/-- Settles O52: a refusal only takes the move, and what has faulted steps no more. -/
theorem refusedMoveLeavesItsInstanceGoingOn : Obligations.RefusedMoveLeavesItsInstanceGoingOn := by
  refine fun x hf => ⟨fun r hw hr => ?_, fun f hfault n => ?_⟩
  · have hafter : afterRefusal x.state = { x.state with moves := x.state.moves.tail } := by
      simp only [afterRefusal, hw]
    rw [instanceStep_of_refused hf hr, hafter]
  · rw [instanceRun, instanceStep_of_fault hf hfault, instanceRun_of_stopped rfl]

end Sys2Proof.Machine
end

section
/-! The family other, the numerals: one canonical text for each u64 (R74), ENC's text and its places (R103 to R106),
and DEC's overflow and canonical inputs (R114 to R117). -/

namespace Sys2Proof.Machine

/-! ### The value of an alphabet text, by its length and its first symbol (R74) -/

theorem digit_le {c : CharCode} {d : Nat} (h : val c = some d) : d ≤ 61 :=
  le_of_alphabet (alphabet_of_val h)

/-- A symbol is SYM of its digit. -/
theorem sym_of_val {c : CharCode} {d : Nat} (h : val c = some d) : sym d = c :=
  sym_of_getElem? (alphabet_of_val h)

/-- The first symbol of an alphabet text has a digit, and what follows is an alphabet text. -/
theorem inAlphabet_cons_digit {c : CharCode} {t : Text} (h : inAlphabet (c :: t) = true) :
    ∃ d, val c = some d ∧ d ≤ 61 ∧ inAlphabet t = true := by
  obtain ⟨hc, ht⟩ := (inAlphabet_cons c t).mp h
  obtain ⟨d, hd⟩ := Option.isSome_iff_exists.mp hc
  exact ⟨d, hd, digit_le hd, ht⟩

theorem textValue_cons_digit {c : CharCode} {d : Nat} (h : val c = some d) (t : Text) :
    textValue (c :: t) = d * 62 ^ t.length + textValue t := by
  rw [textValue_cons, h, Option.getD_some]

theorem textValue_lt {t : Text} (h : inAlphabet t = true) : textValue t < 62 ^ t.length := by
  induction t with
  | nil => simp [textValue_nil]
  | cons c t ih =>
    obtain ⟨d, hd, hle, ht⟩ := inAlphabet_cons_digit h
    have hlow := ih ht
    have hhigh : d * 62 ^ t.length ≤ 61 * 62 ^ t.length := Nat.mul_le_mul_right _ hle
    rw [textValue_cons_digit hd, List.length_cons, pow_succ]
    omega

/-- A text that does not begin with the zero symbol reaches its highest place. -/
theorem le_textValue {t : Text} (h : inAlphabet t = true) (hne : t ≠ []) (hhead : t.head? ≠ some (sym 0)) :
    62 ^ (t.length - 1) ≤ textValue t := by
  cases t with
  | nil => exact absurd rfl hne
  | cons c t =>
    obtain ⟨d, hd, -, -⟩ := inAlphabet_cons_digit h
    have hpos : 0 < d := by
      refine Nat.pos_of_ne_zero fun h0 => hhead ?_
      rw [List.head?_cons, ← sym_of_val hd, h0]
    have hle : 1 * 62 ^ t.length ≤ d * 62 ^ t.length := Nat.mul_le_mul_right _ hpos
    rw [textValue_cons_digit hd, List.length_cons, Nat.add_sub_cancel]
    omega

/-- Alphabet texts of one length have different values. -/
theorem textValue_injective {t u : Text} (ht : inAlphabet t = true) (hu : inAlphabet u = true)
    (hlen : t.length = u.length) (hvalue : textValue t = textValue u) : t = u := by
  induction t generalizing u with
  | nil => exact (List.length_eq_zero_iff.mp hlen.symm).symm
  | cons c t ih =>
    cases u with
    | nil => cases hlen
    | cons c' u =>
      obtain ⟨d, hd, -, ht'⟩ := inAlphabet_cons_digit ht
      obtain ⟨d', hd', -, hu'⟩ := inAlphabet_cons_digit hu
      have hlen' : t.length = u.length := Nat.succ.inj hlen
      have hlt := textValue_lt ht'
      have hlt' := textValue_lt hu'
      rw [textValue_cons_digit hd, textValue_cons_digit hd', hlen'] at hvalue
      rw [hlen'] at hlt
      have hdigit : d = d' := by
        have hdiv := congrArg (· / 62 ^ u.length) hvalue
        simpa [Nat.mul_add_div, Nat.mul_comm _ (62 ^ u.length), Nat.div_eq_of_lt hlt,
          Nat.div_eq_of_lt hlt'] using hdiv
      subst hdigit
      rw [ih ht' hu' hlen' (by omega), ← sym_of_val hd, sym_of_val hd']

/-! ### Canonical texts (R74) -/

theorem canonicalText_iff (t : Text) :
    canonicalText t = true ↔
      inAlphabet t = true ∧ t ≠ [] ∧ (t.head? ≠ some (sym 0) ∨ t = [sym 0]) := by
  simp [canonicalText, and_assoc]

theorem canonicalText_enc (v : U64) : canonicalText (enc v) = true := by
  refine (canonicalText_iff _).mpr ⟨inAlphabet_enc v, enc_ne_nil v, ?_⟩
  by_cases h : v = 0#64
  · exact .inr (by rw [h]; rfl)
  · exact .inl (enc_head? h)

/-- A canonical text is "0", or its value lies between the powers of its length. -/
theorem canonicalText_bounds {t : Text} (h : canonicalText t = true) :
    t = [sym 0] ∨ (62 ^ (t.length - 1) ≤ textValue t ∧ textValue t < 62 ^ t.length) := by
  obtain ⟨ht, hne, hhead | hzero⟩ := (canonicalText_iff t).mp h
  · exact .inr ⟨le_textValue ht hne hhead, textValue_lt ht⟩
  · exact .inl hzero

/-- The power of 62 below a number tells how many symbols its numeral has. -/
theorem eq_of_pow_bounds {m n v : Nat} (hm : 62 ^ (m - 1) ≤ v) (hm' : v < 62 ^ m) (hn : 62 ^ (n - 1) ≤ v)
    (hn' : v < 62 ^ n) : m = n := by
  have h1 : m - 1 < n := (Nat.pow_lt_pow_iff_right (by norm_num)).mp (hm.trans_lt hn')
  have h2 : n - 1 < m := (Nat.pow_lt_pow_iff_right (by norm_num)).mp (hn.trans_lt hm')
  omega

theorem textValue_ne_zero_of_bounds {t : Text} (h : 62 ^ (t.length - 1) ≤ textValue t) : textValue t ≠ 0 := by
  have : 0 < 62 ^ (t.length - 1) := by positivity
  omega

/-- Canonical texts of one value are equal: the value gives the length, and then the symbols. -/
theorem canonicalText_unique {t u : Text} (ht : canonicalText t = true) (hu : canonicalText u = true)
    (hvalue : textValue t = textValue u) : t = u := by
  obtain ⟨htAlpha, -, -⟩ := (canonicalText_iff t).mp ht
  obtain ⟨huAlpha, -, -⟩ := (canonicalText_iff u).mp hu
  obtain rfl | ⟨htLow, htHigh⟩ := canonicalText_bounds ht
  · obtain rfl | ⟨huLow, -⟩ := canonicalText_bounds hu
    · rfl
    · exact absurd hvalue.symm (textValue_ne_zero_of_bounds huLow)
  · obtain rfl | ⟨huLow, huHigh⟩ := canonicalText_bounds hu
    · exact absurd hvalue (textValue_ne_zero_of_bounds htLow)
    · rw [hvalue] at htLow htHigh
      exact textValue_injective htAlpha huAlpha (eq_of_pow_bounds htLow htHigh huLow huHigh) hvalue

theorem canonicalText_eq_enc_iff (v : U64) (t : Text) :
    canonicalText t = true ∧ textValue t = v.toNat ↔ t = enc v := by
  constructor
  · rintro ⟨ht, hvalue⟩
    exact canonicalText_unique ht (canonicalText_enc v) (hvalue.trans (textValue_enc v).symm)
  · rintro rfl
    exact ⟨canonicalText_enc v, textValue_enc v⟩

/-! ### The length and the first symbol of ENC's text (R74, R106) -/

theorem enc_length_pos (v : U64) : 1 ≤ (enc v).length :=
  List.length_pos_iff.mpr (enc_ne_nil v)

theorem enc_bounds {v : U64} (h : v ≠ 0#64) :
    62 ^ ((enc v).length - 1) ≤ v.toNat ∧ v.toNat < 62 ^ (enc v).length := by
  have hlow := le_textValue (inAlphabet_enc v) (enc_ne_nil v) (enc_head? h)
  have hhigh := textValue_lt (inAlphabet_enc v)
  rw [textValue_enc] at hlow hhigh
  exact ⟨hlow, hhigh⟩

/-- The first of 11 symbols stands at the place 62^10, where a u64 has a digit of at most 21. -/
theorem enc_head?_of_eleven {v : U64} (h : (enc v).length = 11) :
    ∃ d, 1 ≤ d ∧ d ≤ 21 ∧ (enc v).head? = some (sym d) := by
  have hv : v ≠ 0#64 := by
    rintro rfl
    rw [enc_zero] at h
    cases h
  have halpha := inAlphabet_enc v
  have hhead := enc_head? hv
  have hvalue := textValue_enc v
  cases ht : enc v with
  | nil => exact absurd ht (enc_ne_nil v)
  | cons c t =>
    rw [ht] at h halpha hhead hvalue
    obtain ⟨d, hd, -, -⟩ := inAlphabet_cons_digit halpha
    rw [textValue_cons_digit hd, show t.length = 10 from Nat.succ.inj h] at hvalue
    have hlt := v.isLt
    refine ⟨d, Nat.pos_of_ne_zero fun h0 => hhead ?_, by omega, ?_⟩
    · rw [List.head?_cons, ← sym_of_val hd, h0]
      rfl
    · rw [List.head?_cons, sym_of_val hd]

/-- Settles O4: ENC's text is canonical and has the value, and no other text does. -/
theorem everyU64HasOneEncodedString : Obligations.EveryU64HasOneEncodedString :=
  ⟨canonicalText_eq_enc_iff, fun v => ⟨enc_length_pos v, enc_length_le v⟩, by decide,
    fun _ => enc_head?_of_eleven⟩

/-- Settles O15: TEXT_OUT holds ENC's text, which is the canonical text of the value. -/
theorem encodeUint64WritesTheNumeral : Obligations.EncodeUint64WritesTheNumeral := by
  intro s v hs
  refine ⟨enc v, exec_encodeUint64 hs, inAlphabet_enc v, textValue_enc v, enc_length_pos v, enc_length_le v,
    fun h => by rw [h, enc_zero], fun h => ⟨enc_head? h, enc_bounds h⟩⟩

/-! ### The places (R103 to R105) -/

/-- Settles O16: before place `j` the working state has `11 - j` places left, and the step takes the next digit. -/
theorem placeStepsExtractTheDigits : Obligations.PlaceStepsExtractTheDigits := by
  intro v j hj
  obtain ⟨hk, hrem, hstarted, -⟩ := placesLeft_after v (j := j) (by omega)
  obtain ⟨-, -, hstarted', -⟩ := placesLeft_after v (j := j + 1) (by omega)
  have hplace : placeValue (runPlaces j (encodeStart v)).k = 62 ^ (10 - j) := by
    rw [hk, placeValue]; congr 1; omega
  have hsplit : 62 ^ (11 - j) = 62 ^ (10 - j) * 62 := by rw [← pow_succ]; congr 1; omega
  have hset : ∀ m, (v.toNat / 62 ^ m != 0) = decide (62 ^ m ≤ v.toNat) := fun m => by
    rw [Bool.eq_iff_iff, bne_iff_ne, decide_eq_true_iff, ← Nat.pos_iff_ne_zero, Nat.div_pos_iff]
    simp
  have hdigit : v.toNat % 62 ^ (11 - j) / 62 ^ (10 - j) ≤ 61 := by
    rw [hsplit, Nat.mod_mul_right_div_self]; omega
  refine ⟨by rw [hk]; omega, hrem, by rwa [hrem], ?first, by rw [hstarted, hset], ?rem, ?out, ?last⟩
  case first =>
    rintro rfl
    have hlt := v.isLt
    rw [hrem]
    omega
  case rem => rw [runPlaces_succ, placeStep_rem_toNat, hplace]
  case out =>
    rw [runPlaces_succ] at hstarted' ⊢
    rw [placeStep_out, hstarted', hset, hplace, show 11 - (j + 1) = 10 - j by omega]
    simp
  case last =>
    apply BitVec.eq_of_toNat_eq
    rw [(placesLeft_after v (le_refl 11)).rem_eq, Nat.sub_self, pow_zero, Nat.mod_one]
    rfl

/-! ### Overflow of DEC (R114, R116) -/

theorem decodeSymbol_of_overflow (order : Config.SymbolOrder) {acc : U64} {c : CharCode} {d : Nat}
    (hc : val c = some d) (h : Config.maxU64 < acc.toNat * 62 + d) :
    decodeSymbol order acc c = .error .overflow := by
  rw [decodeSymbol, hc]; exact if_pos h

theorem decodeSymbol_of_fits (order : Config.SymbolOrder) {acc : U64} {c : CharCode} {d : Nat}
    (hc : val c = some d) (h : acc.toNat * 62 + d ≤ Config.maxU64) :
    decodeSymbol order acc c = .ok (BitVec.ofNat 64 (acc.toNat * 62 + d)) := by
  rw [decodeSymbol, hc]; exact if_neg (Nat.not_lt.mpr h)

/-- Settles O19: the symbols before it pass, and the loop ends at the symbol whose sum does not fit. -/
theorem decodeUint64OverflowsAtTheFirstSuchSymbol : Obligations.DecodeUint64OverflowsAtTheFirstSuchSymbol := by
  intro s p c r d hs hp hv hc hlarge
  have hsym := decodeSymbol_of_overflow Config.sameSymbolOrder hc
    (acc := BitVec.ofNat 64 (textValue p)) (by rwa [toNat_ofNat_of_fits hv])
  rw [exec_decodeUint64 hs, dec_append_cons (decodeFrom_zero_of_fits _ hp hv), decodeFrom_cons_of_error r hsym]
  rfl

/-- Settles O21: a symbol overflows exactly where the exact sum does not fit, which is the threshold test because
a digit is at most 61. -/
theorem overflowIsTheThresholdTest : Obligations.OverflowIsTheThresholdTest := by
  intro order acc c d hc
  have hsum : decodeSymbol order acc c = .error .overflow ↔ Config.maxU64 < acc.toNat * 62 + d := by
    refine ⟨fun h => ?_, decodeSymbol_of_overflow order hc⟩
    by_contra hfits
    rw [decodeSymbol_of_fits order hc (Nat.not_lt.mp hfits)] at h
    cases h
  have hd := digit_le hc
  refine ⟨hsum.trans ?_, hsum, fun h => ⟨_, decodeSymbol_of_fits order hc h, toNat_ofNat_of_fits h⟩⟩
  simp only [Config.maxU64]
  omega

/-! ### Canonical inputs of DEC (R117) -/

/-- What DEC gives is the text's value. -/
theorem textValue_of_dec {order : Config.SymbolOrder} {t : Text} {v : U64} (h : dec order t = .ok v) :
    textValue t = v.toNat := by
  have hne : t ≠ [] := by rintro rfl; cases h
  rw [dec_of_ne_nil order hne] at h
  obtain ⟨-, hv⟩ := decodeFrom_eq_ok_iff.mp h
  simpa using hv.symm

/-- A zero symbol in front leaves the accumulator at 0. -/
theorem dec_zero_cons (order : Config.SymbolOrder) {t : Text} (hne : t ≠ []) :
    dec order (sym 0 :: t) = dec order t := by
  have hzero : decodeSymbol order 0#64 (sym 0) = .ok 0#64 :=
    decodeSymbol_of_fits order (val_sym 0 (by omega)) (by decide)
  rw [dec_of_ne_nil order (by simp), dec_of_ne_nil order hne, decodeFrom_cons_of_ok t hzero]

/-- Settles O23: DEC gives a text its value, and ENC gives the canonical text of that value. -/
theorem encodeInvertsDecodeOnCanonicalTexts : Obligations.EncodeInvertsDecodeOnCanonicalTexts := by
  refine fun order => ⟨dec_enc order, fun t => dec_zero_cons order, fun t v h => ?_⟩
  rw [eq_comm, ← canonicalText_eq_enc_iff]
  exact and_iff_left (textValue_of_dec h)

end Sys2Proof.Machine
end

section
/-! The family other, the bytes: BE_PARSE and BE_RENDER (R181, R185 to R187), and the lengths of EB's texts and of
DB's results (R146, R157, R159). -/

namespace Sys2Proof.Machine

/-! ### BE_PARSE and BE_RENDER (R181, R185, R186) -/

/-- Byte i of a render is the eight bits of the value at its place. -/
theorem beRender_getElem? (v : U64) {n i : Nat} (h : i < n) :
    (beRender v n)[i]? = some (v.extractLsb' (8 * (n - 1 - i)) 8) := by
  have hbyte : ∀ k, ((v >>> k) &&& 0xFF#64).setWidth 8 = v.extractLsb' k 8 := fun k => by
    rw [lowByte_eq]
    rfl
  simp [beRender, h, hbyte, Nat.mul_comm]

theorem bytesValue_append_one (b : Bytes) (x : Byte) : bytesValue (b ++ [x]) = bytesValue b * 256 + x.toNat := by
  simp [bytesValue_append, bytesValue_cons, bytesValue_nil]

/-- A render keeps the low-order bytes of the value. -/
theorem bytesValue_beRender (v : U64) (n : Nat) : bytesValue (beRender v n) = v.toNat % 256 ^ n := by
  induction n generalizing v with
  | zero => rw [pow_zero, Nat.mod_one]; rfl
  | succ n ih =>
    have hlow : (v.setWidth 8).toNat = v.toNat % 256 := BitVec.toNat_setWidth 8 v
    have hhigh : (v >>> 8).toNat = v.toNat / 256 := by rw [BitVec.toNat_ushiftRight, Nat.shiftRight_eq_div_pow]
    rw [beRender_succ, bytesValue_append_one, ih, hlow, hhigh, pow_succ', Nat.mod_mul]
    omega

theorem beParse_beRender_toNat (v : U64) {n : Nat} (h : n ≤ 8) :
    (beParse (beRender v n)).toNat = v.toNat % 2 ^ (8 * n) := by
  rw [beParse_toNat (by rwa [beRender_length]), bytesValue_beRender, pow_mul]
  rfl

/-- Settles O34: a render of a parsed sequence gives its bytes, and a parse of a render gives the low-order bytes'
value, which is the whole value exactly where no higher bit is set. -/
theorem parseAndRenderAreInverse : Obligations.ParseAndRenderAreInverse := by
  refine ⟨fun b => beRender_beParse, fun v n => beParse_beRender_toNat v, fun v n h => ?_⟩
  rw [← BitVec.toNat_inj, beParse_beRender_toNat v h]
  exact ⟨fun heq => heq ▸ Nat.mod_lt _ (by positivity), Nat.mod_eq_of_lt⟩

theorem beParse_cons_toNat (x : Byte) {b : Bytes} (h : b.length < 8) :
    (beParse (x :: b)).toNat = x.toNat * 256 ^ b.length + (beParse b).toNat := by
  rw [beParse_toNat (b := x :: b) h, beParse_toNat h.le, bytesValue_cons]

/-- Settles O35: the first byte stands highest, so a zero there adds nothing, and a parsed sequence is rendered back
at its length. -/
theorem parseIsInjectiveAtOneLength : Obligations.ParseIsInjectiveAtOneLength := by
  refine ⟨fun x b => beParse_cons_toNat x, fun b h => ?_, fun a b hlen ha heq => ?_⟩
  · apply BitVec.eq_of_toNat_eq
    simp [beParse_cons_toNat _ h]
  · rw [← beRender_beParse ha, heq, hlen, beRender_beParse (hlen ▸ ha)]

/-- Settles O33: be_write ends with the render of VALUE_IN at LEN. -/
theorem beWriteRendersTheLowBytes : Obligations.BeWriteRendersTheLowBytes := by
  refine fun s len => ⟨fun v hl hs => ?_, fun hl hs => exec_beWrite_of_none hs hl, exec_beWrite_illegal⟩
  exact ⟨beRender v len.toNat, exec_beWrite hs hl, beRender_length v _, fun i => beRender_getElem? v⟩

/-! ### The length of EB's text (R146) -/

/-- A value below 62^n has at most n symbols. -/
theorem enc_length_le_of_lt {v : U64} {n : Nat} (hn : 1 ≤ n) (h : v.toNat < 62 ^ n) : (enc v).length ≤ n := by
  by_cases h0 : v = 0#64
  · rw [h0, enc_zero]; exact hn
  · obtain ⟨hlow, -⟩ := enc_bounds h0
    have hlt : (enc v).length - 1 < n := (Nat.pow_lt_pow_iff_right (by norm_num)).mp (hlow.trans_lt h)
    omega

/-- A block of r bytes takes at most n symbols where 256^r values fit in n places. -/
theorem enc_beParse_length_le {b : Bytes} {r n : Nat} (hb : b.length = r) (hr : r ≤ 8) (hn : 1 ≤ n)
    (hfits : 256 ^ r ≤ 62 ^ n) : (enc (beParse b)).length ≤ n := by
  refine enc_length_le_of_lt hn ?_
  rw [beParse_toNat (hb.trans_le hr)]
  exact ((bytesValue_lt_of_le hb.le).trans_le hfits)

/-- The padded blocks take 11 symbols each. -/
theorem paddedBlocks_length (blocks : List Bytes) :
    (blocks.map fun x => pad11 (enc (beParse x))).flatten.length = 11 * blocks.length := by
  rw [flatten_length_of_blocks (n := 11), List.length_map, Nat.mul_comm]
  simp only [List.mem_map, forall_exists_index, and_imp]
  rintro t x - rfl
  exact pad11_length (enc_length_le _)

theorem encodeBlocks_length {blocks : List Bytes} (hblocks : ∀ x ∈ blocks, x.length = 8) {final : Bytes}
    (hpos : 1 ≤ final.length) (hfinal : final.length ≤ 8) :
    (encodeBlocks (blocks.flatten ++ final)).length =
      11 * blocks.length + (enc (beParse final)).length + 1 := by
  rw [encodeBlocks_blocks blocks hblocks final (List.length_pos_iff.mp hpos) hfinal, List.length_append,
    List.length_append, paddedBlocks_length, List.length_singleton]

theorem blocks_count {blocks : List Bytes} (hblocks : ∀ x ∈ blocks, x.length = 8) {final : Bytes}
    (hpos : 1 ≤ final.length) (hfinal : final.length ≤ 8) :
    blocks.length + 1 = ((blocks.flatten ++ final).length + 7) / 8 := by
  rw [List.length_append, flatten_length_of_blocks blocks hblocks]
  omega

/-- Settles O26: each block before the final one takes 11 symbols, and the final one as many as its value. -/
theorem encodedTextLength : Obligations.EncodedTextLength := by
  refine ⟨rfl, fun blocks final hblocks hpos hfinal => ?_, fun final => ?_, by decide⟩
  · have hlen := encodeBlocks_length hblocks hpos hfinal
    have hleast := enc_length_pos (beParse final)
    have hmost := enc_length_le (beParse final)
    exact ⟨blocks_count hblocks hpos hfinal, hlen, by omega, by omega⟩
  · refine ⟨fun h => enc_beParse_length_le h ?_ ?_ ?_, fun h => enc_beParse_length_le h ?_ ?_ ?_,
      fun h => enc_beParse_length_le h ?_ ?_ ?_, fun h => enc_beParse_length_le h ?_ ?_ ?_,
      fun h => enc_beParse_length_le h ?_ ?_ ?_, fun h => enc_beParse_length_le h ?_ ?_ ?_,
      fun h => enc_beParse_length_le h ?_ ?_ ?_, fun _ => enc_length_le _⟩ <;> norm_num

/-! ### The length of DB's result (R159) -/

theorem windowCount_pos {n : Nat} (h : 0 < n) : 1 ≤ windowCount n := by
  simp only [windowCount, Config.padWidth]; omega

theorem windowCount_of_le {n : Nat} (h : 0 < n) (hn : n ≤ 11) : windowCount n = 1 := by
  simp only [windowCount, Config.padWidth]; omega

theorem windowCount_add_eleven (n : Nat) : windowCount (n + 11) = windowCount n + 1 := by
  simp only [windowCount, Config.padWidth]; omega

/-- The scan from a window on renders 8 bytes a window but the last, and LBS there. -/
theorem deframeAll_length {order : Config.SymbolOrder} {t : Text} {n : Nat} {w : DeframerWork} {out : Bytes}
    (hlt : w.off < w.cl) (hn : w.cl ≤ w.off + 11 * n) (h : deframeAll order t w = .ok out) :
    out.length = w.out.length + 8 * (windowCount (w.cl - w.off) - 1) + w.lbs := by
  induction n generalizing w with
  | zero => omega
  | succ n ih =>
    rw [deframeAll_of_lt order t hlt] at h
    cases hstep : deframeStep order t w with
    | error e => rw [hstep] at h; cases h
    | ok w' =>
      obtain ⟨hlbs, hcl, hoff, hlen⟩ := deframeStep_ok hstep
      replace h : deframeAll order t w' = .ok out := by rwa [hstep] at h
      by_cases hlast : w.cl - w.off ≤ 11
      · rw [deframeAll_of_done order t (by omega)] at h
        cases h
        have hone := windowCount_of_le (show 0 < w.cl - w.off by omega) hlast
        rw [if_pos hlast] at hlen
        omega
      · have hrest := ih (by omega) (by omega) h
        have hleft : w.cl - w.off = w'.cl - w'.off + 11 := by omega
        have hpos := windowCount_pos (show 0 < w'.cl - w'.off by omega)
        rw [if_neg hlast] at hlen
        rw [hleft, windowCount_add_eleven]
        omega

/-- A terminator that passes is the last symbol, of value at most 8 (R152). -/
theorem terminatorValue_ok {t : Text} {lbs : Nat} (h : terminatorValue t = .ok lbs) :
    ∃ c, t.getLast? = some c ∧ val c = some lbs ∧ lbs ≤ 8 := by
  unfold terminatorValue at h
  cases hlast : t.getLast? with
  | none => simp [hlast] at h
  | some c =>
    cases hc : val c with
    | none => simp [hlast, hc] at h
    | some n =>
      simp only [hlast, hc, Config.terminatorMax] at h
      split_ifs at h with hlarge
      cases h
      exact ⟨c, rfl, hc, Nat.not_lt.mp hlarge⟩

/-- A successful DB passed its length check and its terminator. -/
theorem decodeBlocks_ok {order : Config.SymbolOrder} {t : Text} {out : Bytes} (h : decodeBlocks order t = .ok out) :
    2 ≤ t.length ∧ ∃ lbs, terminatorValue t = .ok lbs ∧ deframeAll order t (deframeStart t lbs) = .ok out := by
  by_cases hlong : 2 ≤ t.length
  · rw [decodeBlocks_of_long order hlong, decodeTerminated] at h
    cases hterm : terminatorValue t with
    | error e => rw [hterm] at h; cases h
    | ok lbs =>
      rw [hterm] at h
      exact ⟨hlong, lbs, rfl, h⟩
  · rw [decodeBlocks_of_short order (by omega)] at h
    cases h

theorem decodeBlocks_length {order : Config.SymbolOrder} {t : Text} {out : Bytes}
    (h : decodeBlocks order t = .ok out) :
    ∃ c lbs, t.getLast? = some c ∧ val c = some lbs ∧ lbs ≤ 8 ∧
      out.length = 8 * (windowCount (t.length - 1) - 1) + lbs ∧
      out.length ≤ 8 * windowCount (t.length - 1) := by
  obtain ⟨hlong, lbs, hterm, hall⟩ := decodeBlocks_ok h
  obtain ⟨c, hlast, hc, hle⟩ := terminatorValue_ok hterm
  have hlt : (deframeStart t lbs).off < (deframeStart t lbs).cl := by simp only [deframeStart]; omega
  have hlen := deframeAll_length (n := t.length) hlt (by simp only [deframeStart]; omega) hall
  simp only [deframeStart, List.length_nil, Nat.zero_add, Nat.sub_zero] at hlen
  have hpos := windowCount_pos (show 0 < t.length - 1 by omega)
  exact ⟨c, lbs, hlast, hc, hle, hlen, by omega⟩

/-- Settles O30: every window but the last renders 8 bytes, and the last one the terminator's count. -/
theorem decodedByteLength : Obligations.DecodedByteLength :=
  fun _ _ _ => decodeBlocks_length

/-! ### Texts that are not canonical (R157) -/

/-- Settles O31: the three texts are decoded under either order, which no valid symbol asks for. -/
theorem nonCanonicalByteTextsDecode : Obligations.NonCanonicalByteTextsDecode := by
  rintro (_ | _) <;> decide

end Sys2Proof.Machine
end

section
/-! The family other, the commands: the codes each reports (R206), the operand as all a result depends on and the
capacities of the results (R30, R39), and a command issued again or after another (R60, R211). -/

namespace Sys2Proof.Machine

/-! ### A command after a command (R60, R211) -/

/-- The end of an earlier command leaves nothing that a later one reads or keeps. -/
theorem exec_endCommand (i : Instr) (c : BitVec 3) (v : Option U64) (b : Option Bytes) (x : Option Text)
    (s : State) : exec i (endCommand c v b x s) = exec i s := by
  cases i <;> rfl

theorem exec_next_eq_endCommand {i : Instr} {s t : State} (h : exec i s = .next t) :
    ∃ c v b x, t = endCommand c v b x s := by
  obtain ⟨e, rfl⟩ | ⟨v, b, x, rfl, -⟩ := exec_next_endCommand h
  · exact ⟨_, _, _, _, rfl⟩
  · exact ⟨_, _, _, _, rfl⟩

/-- Settles O40: the second run starts at the end of the first, which leaves the operand as it was. -/
theorem commandsAreIdempotent : Obligations.CommandsAreIdempotent := by
  intro i s t h
  obtain ⟨c, v, b, x, rfl⟩ := exec_next_eq_endCommand h
  rw [exec_endCommand, h]

/-- Settles O41: a command's end keeps the inputs, so the next word's operand is still written. -/
theorem coreAcceptsTheNextCommandAtOnce : Obligations.CoreAcceptsTheNextCommandAtOnce := by
  intro i s t w h hheld
  obtain ⟨c, v, b, x, rfl⟩ := exec_next_eq_endCommand h
  refine (writeCmd_next_iff w _).mpr fun j hj => ?_
  exact (operandHeld_congr rfl rfl rfl j).trans (hheld j hj)

/-! ### The codes (R206) -/

theorem decodeSymbol_error {order : Config.SymbolOrder} {acc : U64} {c : CharCode} {e : CommandError}
    (h : decodeSymbol order acc c = .error e) : e = .invalidCharacter ∨ e = .overflow := by
  cases hc : val c with
  | some d =>
    simp only [decodeSymbol, hc] at h
    split_ifs at h
    cases h
    exact .inr rfl
  | none =>
    by_cases hacc : Config.maxU64 < acc.toNat * 62
    · rw [decodeSymbol_of_both_fail order hc hacc] at h
      cases h
      cases order
      · exact .inl rfl
      · exact .inr rfl
    · rw [decodeSymbol_of_invalid order hc (Nat.not_lt.mp hacc)] at h
      cases h
      exact .inl rfl

theorem decodeFrom_error {order : Config.SymbolOrder} {acc : U64} {t : Text} {e : CommandError}
    (h : decodeFrom order acc t = .error e) : e = .invalidCharacter ∨ e = .overflow := by
  induction t generalizing acc with
  | nil => cases h
  | cons c t ih =>
    cases hsym : decodeSymbol order acc c with
    | error e' =>
      rw [decodeFrom_cons_of_error t hsym] at h
      cases h
      exact decodeSymbol_error hsym
    | ok a =>
      rw [decodeFrom_cons_of_ok t hsym] at h
      exact ih h

theorem dec_error {order : Config.SymbolOrder} {t : Text} {e : CommandError} (h : dec order t = .error e) :
    e = .emptyInput ∨ e = .invalidCharacter ∨ e = .overflow := by
  by_cases hne : t = []
  · rw [dec, if_pos hne] at h
    cases h
    exact .inl rfl
  · rw [dec_of_ne_nil order hne] at h
    exact .inr (decodeFrom_error h)

theorem deframeStep_error {order : Config.SymbolOrder} {t : Text} {w : DeframerWork} {e : CommandError}
    (h : deframeStep order t w = .error e) : ∃ x, dec order x = .error e := by
  have hwindow : ∀ x n, deframeWindow order x n w = .error e → dec order x = .error e := by
    intro x n hx
    cases hdec : dec order x with
    | error e' => rw [deframeWindow_of_error hdec] at hx; cases hx; rfl
    | ok v => rw [deframeWindow_of_ok hdec] at hx; cases hx
  unfold deframeStep at h
  split at h
  · exact ⟨_, hwindow _ _ h⟩
  · exact ⟨_, hwindow _ _ h⟩

/-- The scan's only errors are DEC's. -/
theorem deframeLoop_error {order : Config.SymbolOrder} {t : Text} {n : Nat} {w : DeframerWork} {e : CommandError}
    (h : deframeLoop order t n w = .error e) : ∃ x, dec order x = .error e := by
  induction n generalizing w with
  | zero => cases h
  | succ n ih =>
    rw [deframeLoop] at h
    split at h
    · cases hstep : deframeStep order t w with
      | error e' =>
        rw [hstep] at h
        cases h
        exact deframeStep_error hstep
      | ok w' =>
        rw [hstep] at h
        exact ih h
    · cases h

theorem deframeAll_error {order : Config.SymbolOrder} {t : Text} {w : DeframerWork} {e : CommandError}
    (h : deframeAll order t w = .error e) : ∃ x, dec order x = .error e := by
  unfold deframeAll at h
  cases hloop : deframeLoop order t (windowCount w.cl) w with
  | error e' =>
    rw [hloop] at h
    cases h
    exact deframeLoop_error hloop
  | ok w' => rw [hloop] at h; cases h

theorem terminatorValue_ne_illegalCommand (t : Text) : terminatorValue t ≠ .error .illegalCommand := by
  unfold terminatorValue
  split
  · simp
  · split
    · simp
    · split <;> simp

/-- DB does not report IllegalCommand. -/
theorem decodeBlocks_ne_illegalCommand (order : Config.SymbolOrder) (t : Text) :
    decodeBlocks order t ≠ .error .illegalCommand := by
  intro h
  by_cases hlong : 2 ≤ t.length
  · rw [decodeBlocks_of_long order hlong, decodeTerminated] at h
    cases hterm : terminatorValue t with
    | error e =>
      rw [hterm] at h
      cases h
      exact terminatorValue_ne_illegalCommand t hterm
    | ok lbs =>
      rw [hterm] at h
      obtain ⟨x, hx⟩ := deframeAll_error h
      have := dec_error hx
      simp at this
  · rw [decodeBlocks_of_short order (by omega)] at h
    cases h

/-- The codes of R206's row of a command. -/
def reportableCodes : Instr → List (BitVec 3)
  | .encodeUint64 => [codeOk]
  | .decodeUint64 => [codeOk, errorCode .emptyInput, errorCode .invalidCharacter, errorCode .overflow]
  | .encodeBytes => [codeOk]
  | .decodeBytes =>
    [codeOk, errorCode .emptyInput, errorCode .invalidCharacter, errorCode .overflow,
      errorCode .malformedTerminator]
  | .beRead => [codeOk, errorCode .illegalCommand]
  | .beWrite _ => [codeOk]

/-- A command the core has ends with a code of its row. -/
theorem exec_status_mem {i : Instr} {s t : State} (hi : i.wellFormed = true) (h : exec i s = .next t) :
    t.status ∈ (reportableCodes i).map statusWith := by
  have hc := exec_cases h
  cases i with
  | encodeUint64 =>
    obtain ⟨v, -, rfl⟩ := hc
    exact List.mem_map_of_mem (by decide)
  | decodeUint64 =>
    obtain ⟨u, -, ⟨e, he, rfl⟩ | ⟨v, -, rfl⟩⟩ := hc
    · obtain rfl | rfl | rfl := dec_error he <;> exact List.mem_map_of_mem (by decide)
    · exact List.mem_map_of_mem (by decide)
  | encodeBytes =>
    obtain ⟨b, -, rfl⟩ := hc
    exact List.mem_map_of_mem (by decide)
  | decodeBytes =>
    obtain ⟨u, -, ⟨e, he, rfl⟩ | ⟨b, -, rfl⟩⟩ := hc
    · cases e with
      | illegalCommand => exact absurd he (decodeBlocks_ne_illegalCommand _ u)
      | _ => exact List.mem_map_of_mem (by decide)
    · exact List.mem_map_of_mem (by decide)
  | beRead => obtain ⟨b, -, ⟨-, rfl⟩ | ⟨-, rfl⟩⟩ := hc <;> exact List.mem_map_of_mem (by decide)
  | beWrite len =>
    have hle : len.toNat ≤ 8 := of_decide_eq_true hi
    obtain ⟨hlt, -⟩ | ⟨-, v, -, rfl⟩ := hc
    · omega
    · exact List.mem_map_of_mem (List.mem_singleton_self _)

/-- A reset core on which the host has then written one text. -/
def coreWithText (u : Text) : State := { State.reset with textIn := some u }

/-- A reset core on which the host has then written one byte sequence. -/
def coreWithBytes (b : Bytes) : State := { State.reset with bytesIn := some b }

/-- A reset core on which the host has then written one value. -/
def coreWithValue (v : U64) : State := { State.reset with valueIn := some v }

/-- decode_uint64 of "0", "", "!" and "zzzzzzzzzzz". -/
theorem decodeUint64_reports_each : ∀ code ∈ [0x00#8, 0x01#8, 0x02#8, 0x03#8],
    ∃ s t, exec .decodeUint64 s = .next t ∧ t.status = code := by
  simp only [List.forall_mem_cons, List.not_mem_nil, false_imp_iff, implies_true, and_true]
  exact ⟨⟨coreWithText [0x30#8], _, rfl, rfl⟩, ⟨coreWithText [], _, rfl, rfl⟩,
    ⟨coreWithText [0x21#8], _, rfl, rfl⟩, ⟨coreWithText (List.replicate 11 0x7A#8), _, rfl, rfl⟩⟩

/-- decode_bytes of "00", "", "!0", "zzzzzzzzzzz0" and "09". -/
theorem decodeBytes_reports_each : ∀ code ∈ [0x00#8, 0x01#8, 0x02#8, 0x03#8, 0x04#8],
    ∃ s t, exec .decodeBytes s = .next t ∧ t.status = code := by
  simp only [List.forall_mem_cons, List.not_mem_nil, false_imp_iff, implies_true, and_true]
  exact ⟨⟨coreWithText [0x30#8, 0x30#8], _, rfl, rfl⟩, ⟨coreWithText [], _, rfl, rfl⟩,
    ⟨coreWithText [0x21#8, 0x30#8], _, rfl, rfl⟩,
    ⟨coreWithText (List.replicate 11 0x7A#8 ++ [0x30#8]), _, rfl, rfl⟩,
    ⟨coreWithText [0x30#8, 0x39#8], _, rfl, rfl⟩⟩

/-- be_read of no bytes and of nine. -/
theorem beRead_reports_each : ∀ code ∈ [0x00#8, 0x05#8], ∃ s t, exec .beRead s = .next t ∧ t.status = code := by
  simp only [List.forall_mem_cons, List.not_mem_nil, false_imp_iff, implies_true, and_true]
  exact ⟨⟨coreWithBytes [], _, rfl, rfl⟩, ⟨coreWithBytes (List.replicate 9 0x00#8), _, rfl, rfl⟩⟩

/-- Settles O38: DEC has three errors, DB those and the terminator's, be_read one, and a state shows each. -/
theorem reportableCodesByCommand : Obligations.ReportableCodesByCommand := by
  refine ⟨fun i s t hi h => ?_, decodeUint64_reports_each, decodeBytes_reports_each, beRead_reports_each,
    ⟨coreWithValue 0#64, _, rfl, rfl⟩, ⟨coreWithBytes [], _, rfl, rfl⟩, ⟨coreWithValue 0#64, _, rfl, rfl⟩⟩
  have hmem := exec_status_mem hi h
  cases i with
  | encodeUint64 => exact List.mem_singleton.mp hmem
  | decodeUint64 => exact hmem
  | encodeBytes => exact List.mem_singleton.mp hmem
  | decodeBytes => exact hmem
  | beRead => exact hmem
  | beWrite len => exact List.mem_singleton.mp hmem

/-! ### The operand and the capacities (R30, R39) -/

theorem finishValue_sameResult {r : Except CommandError U64} {s t : State} (h : finishValue r s = .next t)
    (s' : State) :
    ∃ c v b x, t = endCommand c v b x s ∧ finishValue r s' = .next (endCommand c v b x s') := by
  cases r <;> cases h <;> exact ⟨_, _, _, _, rfl, rfl⟩

theorem finishBytes_sameResult {r : Except CommandError Bytes} {s t : State} (h : finishBytes r s = .next t)
    (s' : State) :
    ∃ c v b x, t = endCommand c v b x s ∧ finishBytes r s' = .next (endCommand c v b x s') := by
  cases r <;> cases h <;> exact ⟨_, _, _, _, rfl, rfl⟩

/-- On one operand a command writes one result, whatever else the two states hold. -/
theorem exec_sameResult {i : Instr} {s s' t : State} (hsame : sameOperand i s s') (h : exec i s = .next t) :
    ∃ c v b x, t = endCommand c v b x s ∧ exec i s' = .next (endCommand c v b x s') := by
  cases i with
  | encodeUint64 =>
    obtain ⟨v, hv, h⟩ := withValueIn_next h
    cases h
    exact ⟨_, _, _, _, rfl, exec_encodeUint64 (hsame.symm.trans hv)⟩
  | decodeUint64 =>
    obtain ⟨u, hu, h⟩ := withTextIn_next h
    rw [exec_decodeUint64 (hsame.symm.trans hu)]
    exact finishValue_sameResult h s'
  | encodeBytes =>
    obtain ⟨b, hb, h⟩ := withBytesIn_next h
    cases h
    exact ⟨_, _, _, _, rfl, exec_encodeBytes (hsame.symm.trans hb)⟩
  | decodeBytes =>
    obtain ⟨u, hu, h⟩ := withTextIn_next h
    rw [exec_decodeBytes (hsame.symm.trans hu)]
    exact finishBytes_sameResult h s'
  | beRead =>
    obtain ⟨b, hb, ⟨hlt, rfl⟩ | ⟨hle, rfl⟩⟩ := exec_cases h
    · exact ⟨_, _, _, _, rfl, exec_beRead_of_lt (hsame.symm.trans hb) hlt⟩
    · refine ⟨_, _, _, _, rfl, ?_⟩
      rw [exec_beRead_of_le (hsame.symm.trans hb) hle, ← beParse_eq_ofNat hle]
      rfl
  | beWrite len =>
    obtain ⟨hlt, rfl⟩ | ⟨hle, v, hv, rfl⟩ := exec_cases h
    · exact ⟨_, _, _, _, rfl, exec_beWrite_illegal hlt⟩
    · exact ⟨_, _, _, _, rfl, exec_beWrite (hsame.symm.trans hv) hle⟩

/-- EB's text has 11 symbols a block at most, and the terminator. -/
theorem encodeBlocks_length_le (b : Bytes) : (encodeBlocks b).length ≤ max 11 (11 * blockCount b.length + 1) := by
  by_cases hb : b = []
  · subst hb; decide
  · obtain ⟨blocks, final, hblocks, hpos, hfinal, rfl⟩ := exists_blocks 8 (by norm_num) b hb
    have hlen := encodeBlocks_length hblocks hpos hfinal
    have hcount : blocks.length + 1 = blockCount (blocks.flatten ++ final).length :=
      blocks_count hblocks hpos hfinal
    have hmost := enc_length_le (beParse final)
    omega

theorem blockCount_mono {m n : Nat} (h : m ≤ n) : blockCount m ≤ blockCount n :=
  Nat.div_le_div_right (Nat.add_le_add_right h _)

theorem windowCount_mono {m n : Nat} (h : m ≤ n) : windowCount m ≤ windowCount n :=
  Nat.div_le_div_right (Nat.add_le_add_right h _)

/-- Where a text output comes from. -/
theorem exec_textOut {i : Instr} {s t : State} {out : Text} (h : exec i s = .next t)
    (hout : t.textOut = some out) :
    (∃ v, out = enc v) ∨ ∃ b, s.bytesIn = some b ∧ out = encodeBlocks b := by
  have hc := exec_cases h
  cases i with
  | encodeUint64 =>
    obtain ⟨v, -, rfl⟩ := hc
    cases hout
    exact .inl ⟨v, rfl⟩
  | encodeBytes =>
    obtain ⟨b, hb, rfl⟩ := hc
    cases hout
    exact .inr ⟨b, hb, rfl⟩
  | decodeUint64 => obtain ⟨u, -, ⟨e, -, rfl⟩ | ⟨v, -, rfl⟩⟩ := hc <;> cases hout
  | decodeBytes => obtain ⟨u, -, ⟨e, -, rfl⟩ | ⟨b, -, rfl⟩⟩ := hc <;> cases hout
  | beRead => obtain ⟨b, -, ⟨-, rfl⟩ | ⟨-, rfl⟩⟩ := hc <;> cases hout
  | beWrite len => obtain ⟨-, rfl⟩ | ⟨-, v, -, rfl⟩ := hc <;> cases hout

/-- Where a bytes output comes from. -/
theorem exec_bytesOut {i : Instr} {s t : State} {out : Bytes} (h : exec i s = .next t)
    (hout : t.bytesOut = some out) :
    (∃ u, s.textIn = some u ∧ decodeBlocks Config.sameSymbolOrder u = .ok out) ∨
      ∃ v n, n ≤ 8 ∧ out = beRender v n := by
  have hc := exec_cases h
  cases i with
  | decodeBytes =>
    obtain ⟨u, hu, ⟨e, -, rfl⟩ | ⟨b, hb, rfl⟩⟩ := hc <;> cases hout
    exact .inl ⟨u, hu, hb⟩
  | beWrite len =>
    obtain ⟨-, rfl⟩ | ⟨hle, v, -, rfl⟩ := hc <;> cases hout
    exact .inr ⟨v, _, hle, rfl⟩
  | encodeUint64 => obtain ⟨v, -, rfl⟩ := hc; cases hout
  | decodeUint64 => obtain ⟨u, -, ⟨e, -, rfl⟩ | ⟨v, -, rfl⟩⟩ := hc <;> cases hout
  | encodeBytes => obtain ⟨b, -, rfl⟩ := hc; cases hout
  | beRead => obtain ⟨b, -, ⟨-, rfl⟩ | ⟨-, rfl⟩⟩ := hc <;> cases hout

/-- TEXT_OUT's capacity (R39). -/
theorem exec_textOut_length_le {i : Instr} {s t : State} {out : Text} (h : exec i s = .next t)
    (hfits : ∀ b, s.bytesIn = some b → b.length ≤ Config.maxInBytes) (hout : t.textOut = some out) :
    out.length ≤ max 11 (11 * blockCount Config.maxInBytes + 1) := by
  obtain ⟨v, rfl⟩ | ⟨b, hb, rfl⟩ := exec_textOut h hout
  · exact (enc_length_le v).trans (le_max_left _ _)
  · have hlen := encodeBlocks_length_le b
    have hcount := blockCount_mono (hfits b hb)
    omega

/-- MAX_IN_CHARS has room for one window (R7). -/
theorem windowCount_maxInChars_pos : 1 ≤ windowCount (Config.maxInChars - 1) := by
  refine windowCount_pos ?_
  have : Config.maxInChars = 2 + Config.maxInCharsAboveLeast := rfl
  omega

/-- BYTES_OUT's capacity (R39). -/
theorem exec_bytesOut_length_le {i : Instr} {s t : State} {out : Bytes} (h : exec i s = .next t)
    (hfits : ∀ u, s.textIn = some u → u.length ≤ Config.maxInChars) (hout : t.bytesOut = some out) :
    out.length ≤ 8 * windowCount (Config.maxInChars - 1) := by
  obtain ⟨u, hu, hdec⟩ | ⟨v, n, hn, rfl⟩ := exec_bytesOut h hout
  · obtain ⟨c, lbs, -, -, -, -, hlen⟩ := decodeBlocks_length hdec
    have hcount := windowCount_mono (Nat.sub_le_sub_right (hfits u hu) 1)
    omega
  · have hpos := windowCount_maxInChars_pos
    rw [beRender_length]
    omega

/-- Settles O39: one operand gives one result, and the lengths of EB's and DB's results grow with their inputs. -/
theorem resultsDependOnlyOnTheOperand : Obligations.ResultsDependOnlyOnTheOperand := by
  refine ⟨fun i s s' t hsame h => ?_, fun i s t out => exec_textOut_length_le,
    fun i s t out _ => exec_bytesOut_length_le⟩
  obtain ⟨c, v, b, x, rfl, h'⟩ := exec_sameResult hsame h
  exact ⟨_, h', rfl, rfl, rfl, rfl⟩

theorem inAlphabet_paddedBlocks (blocks : List Bytes) :
    inAlphabet (blocks.map fun x => pad11 (enc (beParse x))).flatten = true := by
  induction blocks with
  | nil => rfl
  | cons x blocks ih =>
    rw [List.map_cons, List.flatten_cons, inAlphabet_append, pad11, inAlphabet_append, inAlphabet_zeros,
      inAlphabet_enc, ih]
    rfl

/-- EB's text holds alphabet codes. -/
theorem inAlphabet_encodeBlocks (b : Bytes) : inAlphabet (encodeBlocks b) = true := by
  by_cases hb : b = []
  · subst hb; rfl
  · obtain ⟨blocks, final, hblocks, hpos, hfinal, rfl⟩ := exists_blocks 8 (by norm_num) b hb
    rw [encodeBlocks_blocks blocks hblocks final (List.length_pos_iff.mp hpos) hfinal]
    refine inAlphabet_append_sym ?_ (by omega)
    rw [inAlphabet_append, inAlphabet_paddedBlocks, inAlphabet_enc]
    rfl

/-- TEXT_OUT holds alphabet codes (R30). -/
theorem exec_textOut_inAlphabet {i : Instr} {s t : State} {out : Text} (h : exec i s = .next t)
    (hout : t.textOut = some out) : inAlphabet out = true := by
  obtain ⟨v, rfl⟩ | ⟨b, -, rfl⟩ := exec_textOut h hout
  · exact inAlphabet_enc v
  · exact inAlphabet_encodeBlocks b

end Sys2Proof.Machine
end

section
/-! The family other, the stepped reading: a working state that its command reaches ends as that command does (R38),
a step of it ends so or reaches the next one (R108, R118, R160), and the run ends within its bound (R248). -/

namespace Sys2Proof.Machine

/-! ### How a command in progress ends (R38) -/

theorem runPlaces_k (v : U64) {j : Nat} (hj : j ≤ 10) : (runPlaces j (encodeStart v)).k = 10 - j := by
  rw [(placesLeft_after v (by omega)).k_eq]; omega

/-- DB after a terminator that passes. -/
theorem decodeTerminated_of_ok (order : Config.SymbolOrder) {t : Text} {lbs : Nat}
    (h : terminatorValue t = .ok lbs) : decodeTerminated order t = deframeAll order t (deframeStart t lbs) := by
  rw [decodeTerminated, h]

/-- Every loop iteration that a reached working state has left gives the command's own end. -/
theorem finishWork_eq_exec {w : Work} {s : State} (h : workReached w s) :
    finishWork w s = exec (workCommand w) s := by
  cases w with
  | encodeZeroTest => rfl
  | encodePlaces e =>
    obtain ⟨v, j, hs, hv, hj, rfl⟩ := h
    rw [workCommand, exec_encodeUint64 hs, enc_of_ne_zero hv, finishWork, ← runPlaces_add, runPlaces_k v hj,
      show j + (10 - j + 1) = 11 by omega]
  | decodeEmptyTest => rfl
  | decodeSymbols d =>
    obtain ⟨t, hs, hi, hpass⟩ := h
    have hne : t ≠ [] := List.length_pos_iff.mp (by omega)
    have hdec : dec Config.sameSymbolOrder t = decodeFrom Config.sameSymbolOrder d.acc (t.drop d.i) := by
      rw [dec_of_ne_nil _ hne, ← List.take_append_drop d.i t, decodeFrom_append, hpass,
        List.take_append_drop]
    rw [workCommand, exec_decodeUint64 hs, hdec, finishWork, withTextIn_of_eq hs]
  | fragment f =>
    obtain ⟨b, j, hs, rfl, -⟩ := h
    rw [workCommand, exec_encodeBytes hs, finishWork, withBytesIn_of_eq hs]
    by_cases hb : b = []
    · rw [if_pos hb]
    · have hle := le_blockCount b.length
      rw [if_neg hb, encodeBlocks, if_neg hb, ← fragmentLoop_add,
        fragmentLoop_of_le b (blockCount b.length) _ _ (by omega) (by omega)]
  | deframeLength => rfl
  | deframeTerminator =>
    obtain ⟨t, hs, hlong⟩ := h
    rw [workCommand, exec_decodeBytes hs, decodeBlocks_of_long _ hlong, finishWork, withTextIn_of_eq hs]
  | deframeWindows d =>
    obtain ⟨t, lbs, j, hs, hlong, hterm, hpass, -⟩ := h
    obtain ⟨hcl, -, -⟩ := deframeLoop_ok j hpass
    have hle := le_windowCount (deframeStart t lbs).cl
    have hall : deframeAll Config.sameSymbolOrder t (deframeStart t lbs) =
        deframeAll Config.sameSymbolOrder t d := by
      have hloop := deframeLoop_add Config.sameSymbolOrder t j (windowCount d.cl) (deframeStart t lbs)
      rw [hpass, hcl, deframeLoop_of_le _ t (windowCount (deframeStart t lbs).cl) _ _ (by omega) (by omega)]
        at hloop
      rw [deframeAll, deframeAll, hloop, hcl]
    rw [workCommand, exec_decodeBytes hs, decodeBlocks_of_long _ hlong, decodeTerminated_of_ok _ hterm, hall,
      finishWork, withTextIn_of_eq hs]

/-- Settles O49: with no reset pending the step finishes the working state, which the invariant says is reached. -/
theorem commandInProgressEndsAsItsCommand : Obligations.CommandInProgressEndsAsItsCommand := by
  intro s w hinv hw hm
  rw [step_of_work hw hm]
  exact finishWork_eq_exec (hinv.workInProgress w hw)

/-! ### One step of a command in progress (R108, R118, R160) -/

/-- The step either is the command's end, or puts the next reached working state into the core. -/
def EndsOrReaches (w : Work) (s : State) : Prop :=
  advance w s = finishWork w s ∨ ∃ w', workReached w' s ∧ advance w s = keepWork w' s

theorem endsOrReaches_encodeZeroTest {s : State} (h : workReached .encodeZeroTest s) :
    EndsOrReaches .encodeZeroTest s := by
  obtain ⟨v, hs⟩ := Option.isSome_iff_exists.mp h
  by_cases hv : v = 0#64
  · left
    rw [advance, withValueIn_of_eq hs, if_pos hv, finishWork, execEncodeUint64, withValueIn_of_eq hs, hv]
    rfl
  · exact .inr ⟨.encodePlaces _, ⟨v, 0, hs, hv, by omega, rfl⟩, advance_encodeZeroTest_of_ne_zero hs hv⟩

theorem endsOrReaches_encodePlaces {e : IntEncoderWork} {s : State} (h : workReached (.encodePlaces e) s) :
    EndsOrReaches (.encodePlaces e) s := by
  obtain ⟨v, j, hs, hv, hj, rfl⟩ := h
  have hk := runPlaces_k v hj
  by_cases hlast : j = 10
  · left
    have hk0 : (runPlaces j (encodeStart v)).k = 0 := by omega
    rw [advance, advancePlace, if_pos hk0, finishWork, hk0]
    rfl
  · right
    refine ⟨.encodePlaces _, ⟨v, j + 1, hs, hv, by omega, (runPlaces_succ j _).symm⟩, ?_⟩
    rw [advance, advancePlace, if_neg (by omega)]

theorem endsOrReaches_decodeEmptyTest {s : State} (h : workReached .decodeEmptyTest s) :
    EndsOrReaches .decodeEmptyTest s := by
  obtain ⟨t, hs⟩ := Option.isSome_iff_exists.mp h
  by_cases ht : t = []
  · left
    rw [advance, withTextIn_of_eq hs, if_pos ht, finishWork, execDecodeUint64, withTextIn_of_eq hs, ht]
    rfl
  · exact .inr ⟨.decodeSymbols _, ⟨t, hs, List.length_pos_iff.mpr ht, rfl⟩, advance_decodeEmptyTest_of_ne_nil hs ht⟩

theorem endsOrReaches_decodeSymbols {d : IntDecoderWork} {s : State} (h : workReached (.decodeSymbols d) s) :
    EndsOrReaches (.decodeSymbols d) s := by
  obtain ⟨t, hs, hi, hpass⟩ := h
  have hdrop : t.drop d.i = t[d.i] :: t.drop (d.i + 1) := List.drop_eq_getElem_cons hi
  by_cases hend : t.drop (d.i + 1) = [] ∨ ∃ e, decodeSymbol Config.sameSymbolOrder d.acc t[d.i] = .error e
  · left
    rw [advance, withTextIn_of_eq hs, finishWork, withTextIn_of_eq hs, hdrop]
    exact advanceSymbol_of_end hdrop hend s
  · right
    push Not at hend
    obtain ⟨hmore, hsym⟩ := hend
    cases hs' : decodeSymbol Config.sameSymbolOrder d.acc t[d.i] with
    | error e => exact absurd hs' (hsym e)
    | ok a =>
      refine ⟨.decodeSymbols { acc := a, i := d.i + 1 }, ⟨t, hs, ?_, ?_⟩, ?_⟩
      · simpa using hmore
      · rw [List.take_add_one, List.getElem?_eq_getElem hi, Option.toList_some, decodeFrom_append, hpass]
        exact (decodeFrom_cons_of_ok [] hs').trans rfl
      · rw [advance, withTextIn_of_eq hs]
        exact advanceSymbol_of_more hdrop hmore hs' s

theorem endsOrReaches_fragment {f : FragmenterWork} {s : State} (h : workReached (.fragment f) s) :
    EndsOrReaches (.fragment f) s := by
  obtain ⟨b, j, hs, hf, hplace⟩ := h
  unfold EndsOrReaches
  rw [advance, withBytesIn_of_eq hs, finishWork, withBytesIn_of_eq hs, advanceFragment]
  by_cases hb : b = []
  · rw [if_pos hb, if_pos hb]
    exact .inl rfl
  · have hlt : f.off < b.length := hplace.resolve_left hb
    rw [if_neg hb, if_neg hb]
    by_cases hlast : b.length ≤ (fragmentStep b f).off
    · left
      have hpos : 0 < b.length := by omega
      obtain ⟨m, hm⟩ : ∃ m, blockCount b.length = m + 1 :=
        Nat.exists_eq_add_one.mpr (by have := le_blockCount b.length; omega)
      rw [if_pos hlast, hm, fragmentLoop, if_pos hlt, fragmentLoop_of_done b m _ hlast]
    · right
      refine ⟨.fragment _, ⟨b, j + 1, hs, ?_, .inr (Nat.not_le.mp hlast)⟩, if_neg hlast⟩
      rw [hf] at hlt ⊢
      exact (fragmentLoop_succ b j _ hlt).symm

theorem endsOrReaches_deframeLength {s : State} (h : workReached .deframeLength s) :
    EndsOrReaches .deframeLength s := by
  obtain ⟨t, hs⟩ := Option.isSome_iff_exists.mp h
  by_cases hlong : 2 ≤ t.length
  · exact .inr ⟨.deframeTerminator, ⟨t, hs, hlong⟩, advance_deframeLength hs hlong s.work⟩
  · left
    have hshort : t.length < 2 := by omega
    rw [advance, withTextIn_of_eq hs, if_pos hshort, finishWork, execDecodeBytes, withTextIn_of_eq hs,
      decodeBlocks_of_short _ hshort]
    rfl

theorem endsOrReaches_deframeTerminator {s : State} (h : workReached .deframeTerminator s) :
    EndsOrReaches .deframeTerminator s := by
  obtain ⟨t, hs, hlong⟩ := h
  cases hterm : terminatorValue t with
  | error e =>
    left
    rw [finishWork, withTextIn_of_eq hs, decodeTerminated, hterm]
    exact advance_deframeTerminator_of_error hs hterm s.work
  | ok lbs =>
    exact .inr ⟨.deframeWindows _, ⟨t, lbs, 0, hs, hlong, hterm, rfl, by simp only [deframeStart]; omega⟩,
      advance_deframeTerminator_of_ok hs hterm s.work⟩

theorem endsOrReaches_deframeWindows {d : DeframerWork} {s : State} (h : workReached (.deframeWindows d) s) :
    EndsOrReaches (.deframeWindows d) s := by
  obtain ⟨t, lbs, j, hs, hlong, hterm, hpass, hlt⟩ := h
  by_cases hend : ∀ d', deframeStep Config.sameSymbolOrder t d = .ok d' → d'.cl ≤ d'.off
  · left
    rw [finishWork, withTextIn_of_eq hs]
    exact advance_deframeWindows_of_end hs hlt hend s.work
  · right
    push Not at hend
    obtain ⟨d', hstep, hmore⟩ := hend
    refine ⟨.deframeWindows d', ⟨t, lbs, j + 1, hs, hlong, hterm, ?_, hmore⟩,
      advance_deframeWindows_of_more hs hstep hmore s.work⟩
    rw [deframeLoop_add, hpass]
    simp only [deframeLoop, if_pos hlt, hstep]

/-- A step of a reached working state. -/
theorem endsOrReaches_of_workReached {w : Work} {s : State} (h : workReached w s) : EndsOrReaches w s := by
  cases w with
  | encodeZeroTest => exact endsOrReaches_encodeZeroTest h
  | encodePlaces e => exact endsOrReaches_encodePlaces h
  | decodeEmptyTest => exact endsOrReaches_decodeEmptyTest h
  | decodeSymbols d => exact endsOrReaches_decodeSymbols h
  | fragment f => exact endsOrReaches_fragment h
  | deframeLength => exact endsOrReaches_deframeLength h
  | deframeTerminator => exact endsOrReaches_deframeTerminator h
  | deframeWindows d => exact endsOrReaches_deframeWindows h

/-! ### The run within its bound (R248) -/

/-- A run that has ended takes no more steps. -/
theorem microFinish_of_le {m n : Nat} {s t : State} (h : microFinish m s = .next t) (ht : t.work = none)
    (hmn : m ≤ n) : microFinish n s = .next t := by
  obtain ⟨k, rfl⟩ := Nat.exists_eq_add_of_le hmn
  rw [microFinish_add h, microFinish_of_idle k ht]

/-- A command does not read the working state. -/
theorem exec_of_work (i : Instr) (s : State) (w : Option Work) : exec i { s with work := w } = exec i s := by
  cases i <;> rfl

/-- The symbol at which DEC's loop ends: the last one or the first that fails. -/
theorem exists_last_symbol (order : Config.SymbolOrder) (acc : U64) {t : Text} (hne : t ≠ []) :
    ∃ p c r a, t = p ++ c :: r ∧ decodeFrom order acc p = .ok a ∧
      (r = [] ∨ ∃ e, decodeSymbol order a c = .error e) := by
  induction t generalizing acc with
  | nil => exact absurd rfl hne
  | cons c t ih =>
    cases hsym : decodeSymbol order acc c with
    | error e => exact ⟨[], c, t, acc, rfl, rfl, .inr ⟨e, hsym⟩⟩
    | ok b =>
      by_cases ht : t = []
      · exact ⟨[], c, t, acc, rfl, rfl, .inl ht⟩
      · obtain ⟨p, c', r, a, rfl, hpass, hend⟩ := ih b ht
        exact ⟨c :: p, c', r, a, rfl, (decodeFrom_cons_of_ok p hsym).trans hpass, hend⟩

/-- The stepped run of the command ends as the atomic command within the bound. -/
def EndsWithinBound (i : Instr) (s : State) : Prop :=
  ∃ s0 m, startCommand i s = .next s0 ∧ m ≤ stepBound i s ∧ microFinish m s0 = exec i s

theorem endsWithinBound_encodeUint64 {s : State} {v : U64} (hs : s.valueIn = some v) :
    EndsWithinBound .encodeUint64 s := by
  have hstart : startCommand .encodeUint64 s = .next { s with work := some .encodeZeroTest } :=
    withValueIn_of_eq hs _
  obtain ⟨hzero, -⟩ := steppedEncodeTakesElevenPlaces { s with work := some .encodeZeroTest } v hs
  obtain ⟨-, hplaces⟩ := steppedEncodeTakesElevenPlaces s v hs
  by_cases hv : v = 0#64
  · refine ⟨_, 1, hstart, Nat.le_add_right 1 11, ?_⟩
    rw [microFinish_one rfl, hzero hv, exec_of_work]
  · obtain ⟨-, hend⟩ := hplaces hv
    exact ⟨_, 12, hstart, le_refl 12, hend⟩

theorem endsWithinBound_decodeUint64 {s : State} {t : Text} (hs : s.textIn = some t) :
    EndsWithinBound .decodeUint64 s := by
  have hstart : startCommand .decodeUint64 s = .next { s with work := some .decodeEmptyTest } :=
    withTextIn_of_eq hs _
  have hbound : stepBound .decodeUint64 s = 1 + t.length := by rw [stepBound, hs, Option.getD_some]
  obtain ⟨hempty, -⟩ := steppedDecodeTakesOneStepASymbol { s with work := some .decodeEmptyTest } t hs
  obtain ⟨-, hsymbols⟩ := steppedDecodeTakesOneStepASymbol s t hs
  by_cases ht : t = []
  · refine ⟨_, 1, hstart, by omega, ?_⟩
    rw [microFinish_one rfl, hempty ht, exec_of_work]
  · obtain ⟨p, c, r, acc, rfl, hpass, hend⟩ := exists_last_symbol Config.sameSymbolOrder 0#64 ht
    obtain ⟨-, hfinish⟩ := hsymbols p.length acc c (by simp) (by simpa using hpass)
    refine ⟨_, p.length + 2, hstart, ?_, hfinish (hend.imp_left fun hr => ?_)⟩
    · rw [hbound, List.length_append, List.length_cons]
      omega
    · rw [hr, List.length_append, List.length_singleton]

theorem endsWithinBound_encodeBytes {s : State} {b : Bytes} (hs : s.bytesIn = some b) :
    EndsWithinBound .encodeBytes s := by
  have hstart : startCommand .encodeBytes s = .next { s with work := some (.fragment (fragmentStart b)) } :=
    withBytesIn_of_eq hs _
  have hbound : stepBound .encodeBytes s = max 1 (blockCount b.length) := by
    rw [stepBound, hs, Option.getD_some]
  obtain ⟨hframer, -⟩ := steppedFramersTakeOneStepAWindow
  obtain ⟨-, hwindows, hempty⟩ := hframer s b hs
  by_cases hb : b = []
  · exact ⟨_, 1, hstart, hbound ▸ le_max_left _ _, hempty hb⟩
  · exact ⟨_, blockCount b.length, hstart, hbound ▸ le_max_right _ _, hwindows hb⟩

theorem endsWithinBound_decodeBytes {s : State} {t : Text} (hs : s.textIn = some t) :
    EndsWithinBound .decodeBytes s := by
  have hstart : startCommand .decodeBytes s = .next { s with work := some .deframeLength } :=
    withTextIn_of_eq hs _
  have hbound : stepBound .decodeBytes s = 2 + windowCount (t.length - 1) := by
    rw [stepBound, hs, Option.getD_some]
  obtain ⟨-, hdeframer⟩ := steppedFramersTakeOneStepAWindow
  obtain ⟨hshort, hlong⟩ := hdeframer s t hs
  by_cases hlen : t.length < 2
  · exact ⟨_, 1, hstart, by omega, hshort hlen⟩
  · obtain ⟨-, herror, hok⟩ := hlong (Nat.not_lt.mp hlen)
    cases hterm : terminatorValue t with
    | error e => exact ⟨_, 2, hstart, by omega, herror e hterm⟩
    | ok lbs =>
      obtain ⟨-, hend⟩ := hok lbs hterm
      exact ⟨_, 2 + windowCount (t.length - 1), hstart, hbound.ge, hend⟩

/-- The big-endian commands end in the step that starts them (log 15). -/
theorem endsWithinBound_of_start {i : Instr} {s : State} (hstart : startCommand i s = exec i s)
    (hheld : operandHeld i s = true) : EndsWithinBound i s := by
  obtain ⟨t, ht⟩ := exec_exists_next hheld
  exact ⟨t, 0, hstart.trans ht, Nat.zero_le _, ht.symm⟩

theorem endsWithinBound_of_operandHeld {i : Instr} {s : State} (h : operandHeld i s = true) :
    EndsWithinBound i s := by
  cases i with
  | encodeUint64 =>
    obtain ⟨v, hs⟩ := Option.isSome_iff_exists.mp h
    exact endsWithinBound_encodeUint64 hs
  | decodeUint64 =>
    obtain ⟨t, hs⟩ := Option.isSome_iff_exists.mp h
    exact endsWithinBound_decodeUint64 hs
  | encodeBytes =>
    obtain ⟨b, hs⟩ := Option.isSome_iff_exists.mp h
    exact endsWithinBound_encodeBytes hs
  | decodeBytes =>
    obtain ⟨t, hs⟩ := Option.isSome_iff_exists.mp h
    exact endsWithinBound_decodeBytes hs
  | beRead => exact endsWithinBound_of_start rfl h
  | beWrite len => exact endsWithinBound_of_start rfl h

/-- Settles O45: the run ends after its command's steps, and what is left of the bound changes nothing. -/
theorem steppedRunEndsAsTheAtomicCommand : Obligations.SteppedRunEndsAsTheAtomicCommand := by
  intro s i h
  obtain ⟨s0, m, hstart, hle, hend⟩ := endsWithinBound_of_operandHeld h
  obtain ⟨t, ht⟩ := exec_exists_next h
  have hidle : t.work = none := by
    obtain ⟨c, v, b, x, rfl⟩ := exec_next_eq_endCommand ht
    rfl
  exact ⟨s0, t, hstart, microFinish_of_le (hend.trans ht) hidle hle, hidle, ht⟩

end Sys2Proof.Machine
end

section
/-! The family other, the invariant of the core's state (R25 to R31, R38, R39, R200): it holds at reset, and every
step of the atomic model and of the stepped reading keeps it. -/

namespace Sys2Proof.Machine

/-- Settles O42: at reset no register holds a value, and STATUS has code NoResult. -/
theorem invariantHoldsAtReset : Obligations.InvariantHoldsAtReset where
  reservedZero := by decide
  codeNotSix := by decide
  bytesInFits := nofun
  textInFits := nofun
  outputsAfterOk := fun _ => ⟨rfl, rfl, rfl⟩
  oneOutput := .inl ⟨rfl, rfl⟩
  textOutAlphabet := nofun
  textOutFits := nofun
  bytesOutFits := nofun
  workInProgress := nofun

/-! ### What the host's side of the state has to do with the invariant -/

/-- The invariant does not speak of CMD, the pending moves, the last read and the free values' counter. -/
theorem State.Inv.withHostSide {s : State} (h : s.Inv) (c : Option CmdWord) (moves : List HostMove)
    (d : Option ReadData) (n : Nat) :
    State.Inv { s with cmd := c, moves := moves, readData := d, freeReads := n } :=
  { h with workInProgress := fun w hw => by cases w <;> exact h.workInProgress _ hw }

/-- A working state that the operand leads to may be put into the core. -/
theorem State.Inv.withWork {s : State} (h : s.Inv) {w : Work} (hw : workReached w s) :
    State.Inv { s with work := some w } :=
  { h with workInProgress := fun w' hw' => by cases hw'; cases w <;> exact hw }

/-! ### The commands -/

theorem errorCode_ne_six (e : CommandError) : errorCode e ≠ 6#3 := by
  cases e <;> decide

/-- An error leaves its code, no output and no command in progress (R207). -/
theorem State.Inv.endError {s : State} (h : s.Inv) (e : CommandError) :
    (endCommand (errorCode e) none none none s).Inv :=
  { h with
    reservedZero := statusReserved_statusWith _
    codeNotSix := (statusCode_statusWith _).trans_ne (errorCode_ne_six e)
    outputsAfterOk := fun _ => ⟨rfl, rfl, rfl⟩
    oneOutput := .inl ⟨rfl, rfl⟩
    textOutAlphabet := nofun
    textOutFits := nofun
    bytesOutFits := nofun
    workInProgress := nofun }

/-- A command writes at most its own output (R31). -/
theorem exec_oneOutput {i : Instr} {s t : State} (h : exec i s = .next t) :
    (t.valueOut = none ∧ t.bytesOut = none) ∨ (t.valueOut = none ∧ t.textOut = none) ∨
      (t.bytesOut = none ∧ t.textOut = none) := by
  obtain ⟨e, rfl⟩ | ⟨v, b, x, rfl, hv, hb, hx⟩ := exec_next_endCommand h
  · exact .inl ⟨rfl, rfl⟩
  · cases i <;> simp at hv hb hx <;> simp [hv, hb, hx]

/-- A command's end: STATUS and the outputs are the command's own, and no command is in progress. -/
theorem State.Inv.of_exec {s t : State} {i : Instr} (hs : s.Inv) (h : exec i s = .next t) : t.Inv := by
  have hone := exec_oneOutput h
  have halpha := fun out => exec_textOut_inAlphabet (out := out) h
  have htext := fun out => exec_textOut_length_le (out := out) h hs.bytesInFits
  have hbytes := fun out => exec_bytesOut_length_le (out := out) h hs.textInFits
  obtain ⟨e, rfl⟩ | ⟨v, b, x, rfl, -⟩ := exec_next_endCommand h
  · exact hs.endError e
  · exact { hs with
      reservedZero := statusReserved_statusWith _
      codeNotSix := (statusCode_statusWith _).trans_ne (by decide)
      outputsAfterOk := fun hne => absurd (statusCode_statusWith _) hne
      oneOutput := hone
      textOutAlphabet := halpha
      textOutFits := htext
      bytesOutFits := hbytes
      workInProgress := nofun }

/-- An accepted word runs its command, and a rejected one ends with IllegalCommand. -/
theorem State.Inv.of_writeCmd {s t : State} {w : CmdWord} (hs : s.Inv) (h : writeCmd w s = .next t) : t.Inv := by
  have hcmd := hs.withHostSide (some w) s.moves s.readData s.freeReads
  cases hd : decode w with
  | error e =>
    rw [writeCmd_of_error hd] at h
    cases h
    exact hcmd.endError .illegalCommand
  | ok i =>
    rw [writeCmd_of_ok hd] at h
    exact hcmd.of_exec h

/-! ### The host's moves -/

theorem inv_resetCore (s : State) : (resetCore s).Inv :=
  invariantHoldsAtReset.withHostSide none s.moves s.readData s.freeReads

theorem State.Inv.of_hostRead {s t : State} {r : Reg} (hs : s.Inv) (h : hostRead r s = .next t) : t.Inv := by
  obtain ⟨d, ht, -⟩ := hostRead_next h
  rw [ht]
  exact hs.withHostSide s.cmd s.moves (some d) t.freeReads

/-- A host move on an idle core: a write of an input is within its capacity (R244). -/
theorem State.Inv.of_hostMove {s t : State} {m : HostMove} (hs : s.Inv) (hidle : s.work = none)
    (h : hostMove m s = .next t) : t.Inv := by
  have hduty : dutifulMove m s := (hostMove_next_iff m s).mp ⟨t, h⟩
  have hnone : ∀ w, s.work ≠ some w := fun w => by rw [hidle]; nofun
  cases m with
  | writeValueIn v =>
    cases h
    exact { hs with workInProgress := fun w hw => absurd hw (hnone w) }
  | writeBytesIn b =>
    cases (writeBytesIn_of_le hduty s).symm.trans h
    exact { hs with
      bytesInFits := fun _ hb => Option.some.inj hb ▸ hduty
      workInProgress := fun w hw => absurd hw (hnone w) }
  | writeTextIn u =>
    cases (writeTextIn_of_le hduty s).symm.trans h
    exact { hs with
      textInFits := fun _ hu => Option.some.inj hu ▸ hduty
      workInProgress := fun w hw => absurd hw (hnone w) }
  | writeCmd w => exact hs.of_writeCmd h
  | read r => exact hs.of_hostRead h
  | reset =>
    cases h
    exact inv_resetCore s
  | _ => exact hduty.elim

/-! ### The steps -/

/-- Settles O43: a reset gives the reset values, a command in progress ends as its command, and an idle core takes
a host move. -/
theorem stepKeepsTheInvariant : Obligations.StepKeepsTheInvariant := by
  intro s t hs h
  cases hw : s.work with
  | none =>
    cases hm : s.moves with
    | nil =>
      rw [step_of_no_move hw hm] at h
      cases h
      exact hs
    | cons m rest =>
      rw [step_of_move hw hm] at h
      exact (hs.withHostSide s.cmd rest s.readData s.freeReads).of_hostMove hw h
  | some w =>
    by_cases hm : ∃ rest, s.moves = .reset :: rest
    · obtain ⟨rest, hm⟩ := hm
      rw [step_of_reset hm] at h
      cases h
      exact inv_resetCore _
    · rw [commandInProgressEndsAsItsCommand s w hs hw (not_exists.mp hm)] at h
      exact hs.of_exec h

/-- A command started in the stepped reading ends at once, or its first working state is reached (log 15). -/
theorem startCommand_next {i : Instr} {s t : State} (h : startCommand i s = .next t) :
    exec i s = .next t ∨ ∃ w, workReached w s ∧ t = { s with work := some w } := by
  cases i with
  | encodeUint64 =>
    obtain ⟨v, hv, h⟩ := withValueIn_next h
    cases h
    exact .inr ⟨.encodeZeroTest, Option.isSome_of_eq_some hv, rfl⟩
  | decodeUint64 =>
    obtain ⟨u, hu, h⟩ := withTextIn_next h
    cases h
    exact .inr ⟨.decodeEmptyTest, Option.isSome_of_eq_some hu, rfl⟩
  | encodeBytes =>
    obtain ⟨b, hb, h⟩ := withBytesIn_next h
    cases h
    refine .inr ⟨.fragment _, ⟨b, 0, hb, rfl, ?_⟩, rfl⟩
    exact (eq_or_ne b []).imp_right List.length_pos_iff.mpr
  | decodeBytes =>
    obtain ⟨u, hu, h⟩ := withTextIn_next h
    cases h
    exact .inr ⟨.deframeLength, Option.isSome_of_eq_some hu, rfl⟩
  | beRead => exact .inl h
  | beWrite len => exact .inl h

theorem State.Inv.of_startCmd {s t : State} {w : CmdWord} (hs : s.Inv) (h : startCmd w s = .next t) : t.Inv := by
  have hcmd := hs.withHostSide (some w) s.moves s.readData s.freeReads
  unfold startCmd at h
  split at h
  · cases h
    exact hcmd.endError .illegalCommand
  · obtain hend | ⟨w', hreach, rfl⟩ := startCommand_next h
    · exact hcmd.of_exec hend
    · exact hcmd.withWork hreach

/-- A step of a command in progress ends as the command does, or reaches the next working state. -/
theorem State.Inv.of_advance {s t : State} {w : Work} (hs : s.Inv) (hw : s.work = some w)
    (h : advance w s = .next t) : t.Inv := by
  have hreach := hs.workInProgress w hw
  obtain hend | ⟨w', hreach', hkeep⟩ := endsOrReaches_of_workReached hreach
  · rw [hend, finishWork_eq_exec hreach] at h
    exact hs.of_exec h
  · rw [hkeep, keepWork_eq] at h
    cases h
    exact hs.withWork hreach'

/-- Settles O44: as in the atomic model, but that a command is started and then advanced step by step. -/
theorem microStepKeepsTheInvariant : Obligations.MicroStepKeepsTheInvariant := by
  intro s t hs h
  cases hw : s.work with
  | none =>
    cases hm : s.moves with
    | nil =>
      have hstays : microStep s = .next s := by rw [microStep, hw, hm]
      cases hstays.symm.trans h
      exact hs
    | cons m rest =>
      have htaken := hs.withHostSide s.cmd rest s.readData s.freeReads
      by_cases hcmd : ∃ word, m = .writeCmd word
      · obtain ⟨word, rfl⟩ := hcmd
        rw [microStep_of_writeCmd hw hm] at h
        exact htaken.of_startCmd h
      · rw [microStep_of_move hw hm (not_exists.mp hcmd)] at h
        exact htaken.of_hostMove hw h
  | some w =>
    by_cases hm : ∃ rest, s.moves = .reset :: rest
    · obtain ⟨rest, hm⟩ := hm
      rw [microStep_of_reset hm] at h
      cases h
      exact inv_resetCore _
    · rw [microStep_of_work hw (not_exists.mp hm)] at h
      exact hs.of_advance hw h

end Sys2Proof.Machine
end
